-- ==== Sys2Proof/Word.lean ====
section
/-! DEFINITION. The word types of the machine (spec/00_scope.md section 6, spec/10_state.md). -/

namespace Sys2Proof

/-- A byte: the contents of a general register, a timer or a memory cell (R10, R20, R30). -/
abbrev Byte := BitVec 8

/-- A 16-bit value: an instruction word, the PC, I or a call stack entry (R14, R18, R19, R50). -/
abbrev Word := BitVec 16

/-- One nibble of an instruction word (R51). -/
abbrev Nibble := BitVec 4

/-- A register index 0..15 (R10, R51); also a key index 0..15 (R27) and a sprite's row count 0..15 (R53). -/
abbrev Reg := Fin 16

/-- A 12-bit address field `nnn` (R51, R53). -/
abbrev Addr := BitVec 12

/-- VF, the register that doubles as the flag output (R12). -/
abbrev vF : Reg := 15

end Sys2Proof
end

