-- ==== Sys2Proof/Machine/Flags.lean ====
section
/-! DEFINITION. Every value an instruction writes to VF as a flag (10_state.md R12, 41_alu.md R81). -/

namespace Sys2Proof.Machine

/-- A boolean in a register: true is 1, false is 0 (00_scope.md section 6.1). -/
def flagByte (b : Bool) : Byte := if b then 1 else 0

/-- 8xy4: bit 8 of the exact sum (R81, R88). -/
def carryFlag (a b : Byte) : Byte := flagByte (255 < a.toNat + b.toNat)

/-- 8xy5, 8xy7: 1 if the minuend is at least the subtrahend (R81, R89, R91). -/
def notBorrowFlag (minuend subtrahend : Byte) : Byte := flagByte (subtrahend.toNat ≤ minuend.toNat)

/-- 8xy6: the bit shifted out at bit 0 (R90). -/
def shiftedOutRight (a : Byte) : Byte := flagByte (a.getLsbD 0)

/-- 8xyE: the bit shifted out at bit 7 (R93). -/
def shiftedOutLeft (a : Byte) : Byte := flagByte (a.getLsbD 7)

/-- Dxyn: the collision (R122). -/
def collisionFlag (collided : Bool) : Byte := flagByte collided

end Sys2Proof.Machine
end

