-- ==== Sys2Proof/Syntax.lean ====
section
/-! DEFINITION. The instructions: one constructor for each row of spec/opcode_table.json (30_encoding.md R56). The constructor names are the variant names of that table. -/

namespace Sys2Proof

/-- The decoder's tagged variants (R54, R56). `x`, `y` are register indices, `kk` an immediate byte, `nnn` a 12-bit
address, `n` a count of sprite rows (R51, R53). -/
inductive Instr where
  /-- `Unknown(op)`: the row SYS (0nnn), and every other word that no row matches, carrying the raw word (R54, R58, R151). -/
  | unknown (op : Word)
  /-- 00E0 CLS (R121). -/
  | cls
  /-- 00EE RET (R113). -/
  | ret
  /-- 1nnn JP nnn (R110). -/
  | jp (nnn : Addr)
  /-- 2nnn CALL nnn (R111). -/
  | call (nnn : Addr)
  /-- 3xkk SE Vx, kk (R101). -/
  | seImm (x : Reg) (kk : Byte)
  /-- 4xkk SNE Vx, kk (R102). -/
  | sneImm (x : Reg) (kk : Byte)
  /-- 5xy0 SE Vx, Vy (R103). -/
  | seReg (x y : Reg)
  /-- 6xkk LD Vx, kk (R82). -/
  | ldImm (x : Reg) (kk : Byte)
  /-- 7xkk ADD Vx, kk (R83). -/
  | addImm (x : Reg) (kk : Byte)
  /-- 8xy0 LD Vx, Vy (R84). -/
  | ldReg (x y : Reg)
  /-- 8xy1 OR Vx, Vy (R85). -/
  | or (x y : Reg)
  /-- 8xy2 AND Vx, Vy (R86). -/
  | and (x y : Reg)
  /-- 8xy3 XOR Vx, Vy (R87). -/
  | xor (x y : Reg)
  /-- 8xy4 ADD Vx, Vy (R88). -/
  | addReg (x y : Reg)
  /-- 8xy5 SUB Vx, Vy (R89). -/
  | sub (x y : Reg)
  /-- 8xy6 SHR Vx (R90). -/
  | shr (x y : Reg)
  /-- 8xy7 SUBN Vx, Vy (R91). -/
  | subn (x y : Reg)
  /-- 8xyE SHL Vx (R93). -/
  | shl (x y : Reg)
  /-- 9xy0 SNE Vx, Vy (R104). -/
  | sneReg (x y : Reg)
  /-- Annn LD I, nnn (R140). -/
  | ldI (nnn : Addr)
  /-- Bnnn JP V0, nnn (R112). -/
  | jpV0 (nnn : Addr)
  /-- Cxkk RND Vx, kk (R92). -/
  | rnd (x : Reg) (kk : Byte)
  /-- Dxyn DRW Vx, Vy, n (R122). -/
  | drw (x y n : Reg)
  /-- Ex9E SKP Vx (R105). -/
  | skp (x : Reg)
  /-- ExA1 SKNP Vx (R106). -/
  | sknp (x : Reg)
  /-- Fx07 LD Vx, DT (R130). -/
  | ldVxDt (x : Reg)
  /-- Fx0A LD Vx, K (R133). -/
  | ldVxKey (x : Reg)
  /-- Fx15 LD DT, Vx (R131). -/
  | ldDtVx (x : Reg)
  /-- Fx18 LD ST, Vx (R132). -/
  | ldStVx (x : Reg)
  /-- Fx1E ADD I, Vx (R141). -/
  | addI (x : Reg)
  /-- Fx29 LD F, Vx (R142). -/
  | ldFont (x : Reg)
  /-- Fx33 LD B, Vx (R143). -/
  | ldBcd (x : Reg)
  /-- Fx55 LD [I], Vx (R144). -/
  | stRegs (x : Reg)
  /-- Fx65 LD Vx, [I] (R145). -/
  | ldRegs (x : Reg)
deriving DecidableEq, Repr

end Sys2Proof
end

