-- ==== Sys2Proof/Decode.lean ====
section
/-! DEFINITION. The decoder (30_encoding.md R50 to R58), total on words and on byte strings, and the encoder, written from the same formats (R52). -/

namespace Sys2Proof

/-! ## The fields of a word (R51) -/

/-- `g = op[15:12]`, the group. -/
def fieldG (op : Word) : Nibble := op.extractLsb' 12 4

/-- `x = op[11:8]`. -/
def fieldX (op : Word) : Reg := (op.extractLsb' 8 4).toFin

/-- `y = op[7:4]`. -/
def fieldY (op : Word) : Reg := (op.extractLsb' 4 4).toFin

/-- `n = op[3:0]`. -/
def fieldN (op : Word) : Reg := (op.extractLsb' 0 4).toFin

/-- `kk = op[7:0]`. -/
def fieldKK (op : Word) : Byte := op.extractLsb' 0 8

/-- `nnn = op[11:0]`. -/
def fieldNNN (op : Word) : Addr := op.extractLsb' 0 12

/-! ## Decode (R55, R57) -/

/-- Group 0 matches the whole word (R55). -/
def decodeGroup0 (op : Word) : Instr :=
  if op = 0x00E0 then .cls else if op = 0x00EE then .ret else .unknown op

/-- Group 8 dispatches on the low nibble (R55, R57). -/
def decodeGroup8 (op : Word) : Instr :=
  match (fieldN op).val with
  | 0x0 => .ldReg (fieldX op) (fieldY op)
  | 0x1 => .or (fieldX op) (fieldY op)
  | 0x2 => .and (fieldX op) (fieldY op)
  | 0x3 => .xor (fieldX op) (fieldY op)
  | 0x4 => .addReg (fieldX op) (fieldY op)
  | 0x5 => .sub (fieldX op) (fieldY op)
  | 0x6 => .shr (fieldX op) (fieldY op)
  | 0x7 => .subn (fieldX op) (fieldY op)
  | 0xE => .shl (fieldX op) (fieldY op)
  | _ => .unknown op

/-- Group E dispatches on the low byte (R55, R57). -/
def decodeGroupE (op : Word) : Instr :=
  if fieldKK op = 0x9E then .skp (fieldX op)
  else if fieldKK op = 0xA1 then .sknp (fieldX op)
  else .unknown op

/-- Group F dispatches on the low byte (R55, R57). -/
def decodeGroupF (op : Word) : Instr :=
  if fieldKK op = 0x07 then .ldVxDt (fieldX op)
  else if fieldKK op = 0x0A then .ldVxKey (fieldX op)
  else if fieldKK op = 0x15 then .ldDtVx (fieldX op)
  else if fieldKK op = 0x18 then .ldStVx (fieldX op)
  else if fieldKK op = 0x1E then .addI (fieldX op)
  else if fieldKK op = 0x29 then .ldFont (fieldX op)
  else if fieldKK op = 0x33 then .ldBcd (fieldX op)
  else if fieldKK op = 0x55 then .stRegs (fieldX op)
  else if fieldKK op = 0x65 then .ldRegs (fieldX op)
  else .unknown op

/-- `Decode`: pure and total (R54, R57). A word with no matching pattern gives `Unknown(op)`. -/
def decode (op : Word) : Instr :=
  match (fieldG op).toNat with
  | 0x0 => decodeGroup0 op
  | 0x1 => .jp (fieldNNN op)
  | 0x2 => .call (fieldNNN op)
  | 0x3 => .seImm (fieldX op) (fieldKK op)
  | 0x4 => .sneImm (fieldX op) (fieldKK op)
  | 0x5 => if fieldN op = 0 then .seReg (fieldX op) (fieldY op) else .unknown op
  | 0x6 => .ldImm (fieldX op) (fieldKK op)
  | 0x7 => .addImm (fieldX op) (fieldKK op)
  | 0x8 => decodeGroup8 op
  | 0x9 => if fieldN op = 0 then .sneReg (fieldX op) (fieldY op) else .unknown op
  | 0xA => .ldI (fieldNNN op)
  | 0xB => .jpV0 (fieldNNN op)
  | 0xC => .rnd (fieldX op) (fieldKK op)
  | 0xD => .drw (fieldX op) (fieldY op) (fieldN op)
  | 0xE => decodeGroupE op
  | _ => decodeGroupF op

/-- Why a byte string is no instruction: fewer than two bytes are left (R50). -/
inductive DecodeError where
  | truncated
deriving DecidableEq, Repr

/-- Decode the instruction at the head of a byte string, high byte first (R34, R50), and give the bytes after it. -/
def decodeBytes : List Byte → Except DecodeError (Instr × List Byte)
  | hi :: lo :: rest => .ok (decode (hi ++ lo), rest)
  | [_] => .error .truncated
  | [] => .error .truncated

/-- A word's two bytes in the order memory holds them, high byte first (R34). -/
def wordBytes (op : Word) : List Byte := [op.extractLsb' 8 8, op.extractLsb' 0 8]

/-- The word whose bits, numbered as the opcode table numbers them, are the low `nbits` bits of `w`. -/
def tableWord (nbits w : Nat) : Word := BitVec.ofNat 16 (w % 2 ^ nbits)

/-- The instruction the decoder reads from a table word of `nbits` bits, laid out as the hardware stores it. Every
instruction has 16 bits (R50): a longer table word is none. -/
def decodeTableWord (nbits w : Nat) : Option Instr :=
  if nbits ≤ 16 then
    match decodeBytes (wordBytes (tableWord nbits w)) with
    | .ok (i, _) => some i
    | .error _ => none
  else none

/-! ## Encode (R52) -/

/-- Format NNN: `group ++ nnn`. -/
def packNNN (g : Nibble) (nnn : Addr) : Word := g ++ nnn

/-- Format XKK: `group ++ x ++ kk`; format X is this one with the sub-opcode as `kk`. -/
def packXKK (g : Nibble) (x : Reg) (kk : Byte) : Word := g ++ (BitVec.ofFin x : Nibble) ++ kk

/-- Format XYN: `group ++ x ++ y ++ n`; format XY is this one with the sub-opcode as `n`. -/
def packXYN (g : Nibble) (x y n : Reg) : Word :=
  g ++ (BitVec.ofFin x : Nibble) ++ (BitVec.ofFin y : Nibble) ++ (BitVec.ofFin n : Nibble)

/-- The word of an instruction (R52, R56). -/
def encode : Instr → Word
  | .unknown op => op
  | .cls => 0x00E0
  | .ret => 0x00EE
  | .jp nnn => packNNN 0x1 nnn
  | .call nnn => packNNN 0x2 nnn
  | .seImm x kk => packXKK 0x3 x kk
  | .sneImm x kk => packXKK 0x4 x kk
  | .seReg x y => packXYN 0x5 x y 0x0
  | .ldImm x kk => packXKK 0x6 x kk
  | .addImm x kk => packXKK 0x7 x kk
  | .ldReg x y => packXYN 0x8 x y 0x0
  | .or x y => packXYN 0x8 x y 0x1
  | .and x y => packXYN 0x8 x y 0x2
  | .xor x y => packXYN 0x8 x y 0x3
  | .addReg x y => packXYN 0x8 x y 0x4
  | .sub x y => packXYN 0x8 x y 0x5
  | .shr x y => packXYN 0x8 x y 0x6
  | .subn x y => packXYN 0x8 x y 0x7
  | .shl x y => packXYN 0x8 x y 0xE
  | .sneReg x y => packXYN 0x9 x y 0x0
  | .ldI nnn => packNNN 0xA nnn
  | .jpV0 nnn => packNNN 0xB nnn
  | .rnd x kk => packXKK 0xC x kk
  | .drw x y n => packXYN 0xD x y n
  | .skp x => packXKK 0xE x 0x9E
  | .sknp x => packXKK 0xE x 0xA1
  | .ldVxDt x => packXKK 0xF x 0x07
  | .ldVxKey x => packXKK 0xF x 0x0A
  | .ldDtVx x => packXKK 0xF x 0x15
  | .ldStVx x => packXKK 0xF x 0x18
  | .addI x => packXKK 0xF x 0x1E
  | .ldFont x => packXKK 0xF x 0x29
  | .ldBcd x => packXKK 0xF x 0x33
  | .stRegs x => packXKK 0xF x 0x55
  | .ldRegs x => packXKK 0xF x 0x65

end Sys2Proof
end

