-- ==== Sys2Proof/Config.lean ====
section
/-! DEFINITION. The implementation parameters of spec/00_scope.md section 4 (R3), and the free value of Cxkk (R92). The font's address and bytes stand in Machine/Font.lean. -/

namespace Sys2Proof.Config

/-- `MEM_SIZE`: bytes of memory (R3, R30). -/
abbrev memSize : Nat := 4096

/-- `PROG_BASE`: the load address and the PC at reset (R3, R14). -/
abbrev progBase : Nat := 0x200

/-- `ROM_MAX`: the largest ROM, `MEM_SIZE - PROG_BASE` (R3, R40). -/
abbrev romMax : Nat := 3584

/-- `STACK_DEPTH`: entries of the call stack (R3, R19). -/
abbrev stackDepth : Nat := 16

/-- `FB_W`: framebuffer columns (R3, R26). -/
abbrev fbWidth : Nat := 64

/-- `FB_H`: framebuffer rows (R3, R26). -/
abbrev fbHeight : Nat := 32

/-- `TIMER_HZ`: timer and frame rate (R3, R156). -/
abbrev timerHz : Nat := 60

/-- `CLOCK_HZ_DEFAULT`: the default argument of `run_frame` (R156). -/
abbrev clockHzDefault : Nat := 500

/-- `UNKNOWN_OPCODE_POLICY`: what an undecodable word does (R150, D1). The parameter's value is carried in State.policy. -/
inductive UnknownOpcodePolicy where
  /-- The word raises UnknownOpcode and the machine stops. -/
  | fatal
  /-- The word does nothing; PC has been advanced by the fetch. -/
  | nop
deriving DecidableEq, Repr

/-- FREE VALUE (log 11): the 8-bit draw of Cxkk (R92, D19). `randomByte k` is the byte of the k-th draw; nothing constrains
it. -/
opaque randomByte : Nat → Byte

end Sys2Proof.Config
end

