-- ==== Sys2Proof/Machine/State.lean ====
section
/-! DEFINITION. The machine's state as plain data (10_state.md section 1, R10 to R28), the errors a cycle can raise (60_exceptions.md R170, R171), the outcomes' reasons, and reset. -/

namespace Sys2Proof.Machine

/-- Memory: the listed (address, byte) pairs. An address that is not listed reads as `resetByte` (Machine/Memory.lean), the
contents after a load of an empty ROM (R38). `Memory.wf` is the canonical form. -/
abbrev Memory := List Host.Cell

/-- The framebuffer `fb[r][c]`: 32 rows of 64 pixels (R26). -/
abbrev Framebuffer := Vector (Vector Bool 64) 32

/-- `cpu_state` (R21, R135). -/
inductive CpuState where
  | running
  /-- Blocked by Fx0A until a key is held; `d` receives the key. -/
  | waitingForKey (d : Reg)
deriving DecidableEq, Repr

/-- The errors a CPU cycle can raise (R170). RomTooLarge and InvalidKeyIndex are statuses of the host operations
(Machine/HostOps.lean). -/
inductive RunError where
  /-- An access outside 0..4095; carries the lowest out-of-range address (R32, R172). -/
  | addressOutOfBounds (addr : Nat)
  /-- 2nnn with 16 entries in use (R111). -/
  | stackOverflow
  /-- 00EE with no entry in use (R113). -/
  | stackUnderflow
  /-- An undecodable word under the policy `Fatal` (R150). -/
  | unknownOpcode (raw : Word)
deriving DecidableEq, Repr

/-- The fault record (R171): the error, the address of the instruction, and the fetched word, or none if the fetch itself
raised. -/
structure FaultRecord where
  error : RunError
  address : Word
  word : Option Word
deriving DecidableEq, Repr

/-- The machine's state. -/
structure State where
  /-- V0..VF (R10). -/
  regs : Vector Byte 16
  /-- I (R18). -/
  index : Word
  /-- PC (R14). -/
  pc : Word
  /-- SP, the number of call stack entries in use, 0..16 (R19). -/
  sp : Fin 17
  /-- stack[0..15] (R19). -/
  stack : Vector Word 16
  /-- DT (R20). -/
  dt : Byte
  /-- ST (R20). -/
  st : Byte
  /-- mem (R30). -/
  mem : Memory
  /-- fb (R26). -/
  fb : Framebuffer
  /-- key[0..15], the levels of the keys (R27). -/
  keys : Vector Bool 16
  /-- cpu_state (R21). -/
  cpuState : CpuState
  /-- fault, the fault latch (R22). -/
  fault : Option FaultRecord
  /-- The parameter UNKNOWN_OPCODE_POLICY (R150, D1): constant during a run (log 6). -/
  policy : Config.UnknownOpcodePolicy
  /-- The MODEL's own field: how many random bytes Cxkk has drawn; selects the next free byte (log 11). -/
  draws : Nat
deriving DecidableEq, Repr

/-- Why a step gives no next state. -/
inductive Fault where
  /-- Raised by `step` alone, on a machine whose fault latch is already set: no cycle runs until a `load` (R22, R157, R177).
  Safe: the manual says the machine does nothing here. -/
  | machineStopped (r : FaultRecord)
deriving DecidableEq, Repr

/-- Why an instruction has no meaning. -/
inductive Refusal where
  /-- Raised by an arm of `exec` whose instruction is not modelled yet; no arm is. Safe. -/
  | notModelled (mnemonic : String)
deriving DecidableEq, Repr

/-- The state after reset: the construction state, equal to a `load` of an empty ROM (R28, R190, R192). PC, the run state,
the framebuffer and the keypad are the source's; the other values are the spec's decisions D18, D21 (log 3, 4), the policy
is D1's reference value (log 6), and `draws` is the model's (log 11). -/
def State.reset : State where
  regs := Vector.replicate 16 0
  index := 0
  pc := 0x200
  sp := 0
  stack := Vector.replicate 16 0
  dt := 0
  st := 0
  mem := []
  fb := Vector.replicate 32 (Vector.replicate 64 false)
  keys := Vector.replicate 16 false
  cpuState := .running
  fault := none
  policy := .fatal
  draws := 0

end Sys2Proof.Machine
end

