-- ==== Sys2Proof/Machine/Framebuffer.lean ====
section
/-! DEFINITION. The framebuffer controller: clear and the XOR blit (44_draw.md R120, R123). -/

namespace Sys2Proof.Machine

/-- The pixel at row `r`, column `c` (R26). -/
def Framebuffer.pixel (fb : Framebuffer) (r : Fin 32) (c : Fin 64) : Bool := fb[r][c]

/-- `clear()` (R120). -/
def clearFb : Framebuffer := Vector.replicate 32 (Vector.replicate 64 false)

/-- `fb[r][c] <- fb[r][c] ^ 1` (R123). -/
def Framebuffer.toggle (fb : Framebuffer) (r : Fin 32) (c : Fin 64) : Framebuffer :=
  fb.set r (fb[r].set c (!fb[r][c]))

/-- The row `y mod 32` (R120, R123). -/
def wrapRow (y : Nat) : Fin 32 := ⟨y % 32, Nat.mod_lt _ (by decide)⟩

/-- The column `x mod 64` (R120, R123). -/
def wrapCol (x : Nat) : Fin 64 := ⟨x % 64, Nat.mod_lt _ (by decide)⟩

/-- One sprite bit at one pixel: a 1 bit toggles the pixel, and collides if the pixel was 1 (R123). The pair is the
framebuffer and `collided`. -/
def plot (bit : Bool) (r : Fin 32) (c : Fin 64) (d : Framebuffer × Bool) : Framebuffer × Bool :=
  if bit then (d.1.toggle r c, d.2 || d.1.pixel r c) else d

/-- Column `col` of a sprite row is bit `7 - col` of its byte (R123, D13). -/
def spriteBit (b : Byte) (col : Nat) : Bool := b.getLsbD (7 - col)

/-- One sprite row at row `y`, columns `x0 .. x0 + 7` (R123). -/
def drawRow (x0 y : Nat) (b : Byte) (d : Framebuffer × Bool) : Framebuffer × Bool :=
  (List.range 8).foldl (fun d col => plot (spriteBit b col) (wrapRow y) (wrapCol (x0 + col)) d) d

/-- The sprite's rows from `y` downward (R123). -/
def drawRows (x0 : Nat) : Nat → List Byte → Framebuffer × Bool → Framebuffer × Bool
  | _, [], d => d
  | y, b :: bs, d => drawRows x0 (y + 1) bs (drawRow x0 y b d)

/-- `draw_sprite(x0, y0, bytes)`: the new framebuffer and `collided` (R123). -/
def drawSprite (x0 y0 : Nat) (bytes : List Byte) (fb : Framebuffer) : Framebuffer × Bool :=
  drawRows x0 y0 bytes (fb, false)

end Sys2Proof.Machine
end

