-- ==== Sys2Proof/Machine/Font.lean ====
section
/-! DEFINITION. The font: its address and its 80 bytes (20_memory.md R37; PRESUMED, log 5). -/

namespace Sys2Proof.Machine

/-- `FONT_BASE` (R37, D17). -/
abbrev fontBase : Nat := 0x050

/-- `FONT_GLYPH_BYTES`: bytes per glyph (R37). -/
abbrev fontGlyphBytes : Nat := 5

/-- `FONT_TABLE`: one glyph per line, top row first, bit 7 the leftmost pixel (R37). -/
def fontTable : List Byte :=
  [0xF0, 0x90, 0x90, 0x90, 0xF0] ++
  [0x20, 0x60, 0x20, 0x20, 0x70] ++
  [0xF0, 0x10, 0xF0, 0x80, 0xF0] ++
  [0xF0, 0x10, 0xF0, 0x10, 0xF0] ++
  [0x90, 0x90, 0xF0, 0x10, 0x10] ++
  [0xF0, 0x80, 0xF0, 0x10, 0xF0] ++
  [0xF0, 0x80, 0xF0, 0x90, 0xF0] ++
  [0xF0, 0x10, 0x20, 0x40, 0x40] ++
  [0xF0, 0x90, 0xF0, 0x90, 0xF0] ++
  [0xF0, 0x90, 0xF0, 0x10, 0xF0] ++
  [0xF0, 0x90, 0xF0, 0x90, 0x90] ++
  [0xE0, 0x90, 0xE0, 0x90, 0xE0] ++
  [0xF0, 0x80, 0x80, 0x80, 0xF0] ++
  [0xE0, 0x90, 0x90, 0x90, 0xE0] ++
  [0xF0, 0x80, 0xF0, 0x80, 0xF0] ++
  [0xF0, 0x80, 0xF0, 0x80, 0x80]

end Sys2Proof.Machine
end

