-- ==== Sys2Proof/Machine/Memory.lean ====
section
/-! DEFINITION. The memory: what an unlisted address reads as, the canonical form, reading and writing a byte and a run of bytes, and the checked accessors (20_memory.md R30 to R38). -/

namespace Sys2Proof.Machine

/-- What an unlisted address reads as: the contents after a `load` of an empty ROM (R38): the font, and zero elsewhere
(DESIGN CHOICE, log 4; the font PRESUMED, log 5). -/
def resetByte (a : Nat) : Byte :=
  if a < fontBase then 0 else fontTable.getD (a - fontBase) 0

/-- The canonical form: addresses strictly rising and below 4096, no entry equal to what its address reads as unlisted. -/
abbrev Memory.wf (m : Memory) : Prop :=
  m.Pairwise (fun c d => c.1 < d.1) ∧ ∀ c ∈ m, c.1 < Config.memSize ∧ c.2 ≠ resetByte c.1

/-- The byte at an address (R30, R36). -/
def Memory.get : Memory → Nat → Byte
  | [], a => resetByte a
  | c :: m, a => if a = c.1 then c.2 else Memory.get m a

/-- List the byte `v` at `a`, in the place its address has. -/
def Memory.insert : Memory → Nat → Byte → Memory
  | [], a, v => [(a, v)]
  | c :: m, a, v =>
    if a < c.1 then (a, v) :: c :: m
    else if a = c.1 then (a, v) :: m
    else c :: Memory.insert m a v

/-- Unlist the address `a`. -/
def Memory.erase (m : Memory) (a : Nat) : Memory := m.filter (fun c => c.1 != a)

/-- `mem[a] <- v`, keeping the canonical form. -/
def Memory.set (m : Memory) (a : Nat) (v : Byte) : Memory :=
  if v = resetByte a then m.erase a else m.insert a v

/-- Write the bytes at `base`, `base + 1`, ... (R34, R36). -/
def Memory.setSpan : Memory → Nat → List Byte → Memory
  | m, _, [] => m
  | m, base, v :: vs => Memory.setSpan (m.set base v) (base + 1) vs

/-- The bytes at `base`, ..., `base + n - 1`. -/
def Memory.getSpan (m : Memory) (base n : Nat) : List Byte := (List.range n).map (fun k => m.get (base + k))

/-! ## The checked accessors (R31, R32) -/

/-- `MemRead(addr, 1)`. -/
def readByte (m : Memory) (a : Nat) : Except RunError Byte :=
  if a < Config.memSize then .ok (m.get a) else .error (.addressOutOfBounds a)

/-- `MemWrite(addr, 1, v)`. -/
def writeByte (m : Memory) (a : Nat) (v : Byte) : Except RunError Memory :=
  if a < Config.memSize then .ok (m.set a v) else .error (.addressOutOfBounds a)

/-- `MemRead(addr, 2)`, big-endian (R34): the high byte at the lower address. -/
def readWord (m : Memory) (a : Nat) : Except RunError Word :=
  match readByte m a with
  | .error e => .error e
  | .ok hi =>
    match readByte m (a + 1) with
    | .error e => .error e
    | .ok lo => .ok (hi ++ lo)

/-- Some address of `base, ..., base + n - 1` is out of range (R32, R33): addresses are naturals and never wrap. -/
def spanOut (base n : Nat) : Bool := 0 < n && Config.memSize < base + n

/-- The error of an out-of-range span: it carries the lowest such address (R172). -/
def spanError (base : Nat) : RunError := .addressOutOfBounds (max base Config.memSize)

/-- Read `n` bytes from `base`, all addresses checked first (R146). -/
def readSpan (m : Memory) (base n : Nat) : Except RunError (List Byte) :=
  if spanOut base n then .error (spanError base) else .ok (m.getSpan base n)

/-- Write the bytes from `base` on, all addresses checked before the first write (R146). -/
def writeSpan (m : Memory) (base : Nat) (vs : List Byte) : Except RunError Memory :=
  if spanOut base vs.length then .error (spanError base) else .ok (m.setSpan base vs)

end Sys2Proof.Machine
end

