-- ==== Sys2Proof/Machine/Ops.lean ====
section
/-! DEFINITION. The named operations over the state: registers, PC, fetch, the call stack, and raising an error (40_cpu_cycle.md R72, 60_exceptions.md R175). -/

namespace Sys2Proof.Machine

/-- What a meaning and a step answer. -/
abbrev Result := Host.Outcome State Fault Refusal

/-! ## General registers (R10, R11) -/

/-- `V[x]`. -/
def State.v (s : State) (x : Reg) : Byte := s.regs[x]

/-- `V[x] <- b`. -/
def State.setV (s : State) (x : Reg) (b : Byte) : State := { s with regs := s.regs.set x b }

/-- The result first, the flag into VF second (R13, D7). -/
def State.setVFlag (s : State) (x : Reg) (result flag : Byte) : State := (s.setV x result).setV vF flag

/-! ## The other registers -/

/-- `I <- w` (R18). -/
def State.setIndex (s : State) (w : Word) : State := { s with index := w }

/-- `PC <- w` (R14). -/
def State.setPc (s : State) (w : Word) : State := { s with pc := w }

/-- `DT <- b` (R20). -/
def State.setDt (s : State) (b : Byte) : State := { s with dt := b }

/-- `ST <- b` (R20). -/
def State.setSt (s : State) (b : Byte) : State := { s with st := b }

/-- Replace the memory. -/
def State.setMem (s : State) (m : Memory) : State := { s with mem := m }

/-- Replace the framebuffer. -/
def State.setFb (s : State) (fb : Framebuffer) : State := { s with fb := fb }

/-- `cpu_state <- c` (R21). -/
def State.setCpuState (s : State) (c : CpuState) : State := { s with cpuState := c }

/-- Advance PC by 2: the fetch's advance and a taken skip's (R72, R100). -/
def State.advancePc (s : State) : State := s.setPc (s.pc + 2)

/-- If the condition holds, advance PC by an additional 2 (R100). -/
def State.skipIf (s : State) (c : Bool) : State := if c then s.advancePc else s

/-- Count one random byte as drawn (log 11). -/
def State.countDraw (s : State) : State := { s with draws := s.draws + 1 }

/-! ## Raising an error (R175)

There is no handler, no vector and no return from an error (R175, R177): the fault latch is set and the machine stops. The
only way on is `loadRom` (Machine/HostOps.lean). -/

/-- `raise E`: set the fault latch to the record and change nothing else (R171, R175). -/
def State.raise (s : State) (e : RunError) (address : Word) (word : Option Word) : State :=
  { s with fault := some { error := e, address := address, word := word } }

/-- A fetch that raises: PC is unchanged and there is no word (R72, R171). -/
def State.raiseFetch (s : State) (e : RunError) : State := s.raise e s.pc none

/-- The instruction `i` raises during its execution: PC has been advanced, so its own address is PC - 2 (R75, R171), and its
word is its encoding. -/
def State.raiseInstr (s : State) (i : Instr) (e : RunError) : State := s.raise e (s.pc - 2) (some (encode i))

/-! ## Fetch (R72) -/

/-- The word at PC, and the state with PC advanced; or the error, the state unchanged. -/
def fetch (s : State) : Except RunError (Word × State) :=
  match readWord s.mem s.pc.toNat with
  | .error e => .error e
  | .ok op => .ok (op, s.advancePc)

/-! ## The call stack (R19) -/

/-- The entry a push writes: `stack[SP]`, if SP < 16. -/
def pushSlot (sp : Fin 17) : Option (Fin 16) := if h : sp.val < 16 then some ⟨sp.val, h⟩ else none

/-- The entry a pop reads: `stack[SP - 1]`, if SP > 0. -/
def popSlot (sp : Fin 17) : Option (Fin 16) :=
  if h : 0 < sp.val then some ⟨sp.val - 1, by omega⟩ else none

/-- `stack[SP] <- w; SP <- SP + 1` with StackOverflow if full. -/
def push (s : State) (w : Word) : Except RunError State :=
  match pushSlot s.sp with
  | none => .error .stackOverflow
  | some j => .ok { s with stack := s.stack.set j w, sp := j.succ }

/-- `SP <- SP - 1` and `stack[SP]`, with StackUnderflow if empty. -/
def pop (s : State) : Except RunError (Word × State) :=
  match popSlot s.sp with
  | none => .error .stackUnderflow
  | some j => .ok (s.stack[j], { s with sp := j.castSucc })

/-! ## Placing the next instruction from outside -/

/-- The state with the word `op` stored where the next fetch reads it (log 2): the machine is made able to fetch (no fault,
not waiting, PC where a fetch succeeds), and the two bytes are written at PC, high byte first. -/
def State.placeWord (s : State) (op : Word) : State :=
  let pc : Word := if s.pc.toNat + 1 < Config.memSize then s.pc else BitVec.ofNat 16 Config.progBase
  { s with
    pc := pc
    cpuState := .running
    fault := none
    mem := s.mem.setSpan pc.toNat (wordBytes op) }

end Sys2Proof.Machine
end

