-- ==== Sys2Proof/Machine/Operands.lean ====
section
/-! DEFINITION. Every operand form: register, immediate, 12-bit address, key index, font glyph, and I plus an offset (30_encoding.md R53, 46_index_memory.md R146). -/

namespace Sys2Proof.Machine

/-- `zext_16(nnn)` (R53). -/
def addrWord (nnn : Addr) : Word := nnn.setWidth 16

/-- `nnn + V[0]` (R112), held in 16 bits; the sum is at most 0x10FE. -/
def jumpV0Target (nnn : Addr) (v0 : Byte) : Word := addrWord nnn + v0.setWidth 16

/-- The low nibble of a register's value: a key index (R105, D14) or a glyph number (R142). -/
def lowNibble (b : Byte) : Fin 16 := (b.extractLsb' 0 4).toFin

/-- The key selected by a register's value is held (R105, R134). -/
def keyHeld (s : State) (b : Byte) : Bool := s.keys[lowNibble b]

/-- `FONT_BASE + 5 * d`, the address of the glyph of the low nibble (R142). -/
def glyphAddr (b : Byte) : Word := BitVec.ofNat 16 (fontBase + fontGlyphBytes * (lowNibble b).val)

/-- The base address of every data access, as a natural: an offset is added without wrap-around (R33, R146). -/
def State.base (s : State) : Nat := s.index.toNat

/-- The three decimal digits, hundreds first (R143). -/
def bcdDigits (b : Byte) : List Byte :=
  [BitVec.ofNat 8 (b.toNat / 100), BitVec.ofNat 8 (b.toNat / 10 % 10), BitVec.ofNat 8 (b.toNat % 10)]

/-- The values of V0..Vx (R144). -/
def regsUpTo (s : State) (x : Reg) : List Byte := s.regs.toList.take (x.val + 1)

/-- `V[i]` takes the i-th byte of the list; a register with no byte in the list keeps its value (R145). -/
def loadRegs (regs : Vector Byte 16) (bytes : List Byte) : Vector Byte 16 :=
  Vector.ofFn (fun i : Fin 16 => bytes.getD i.val regs[i])

/-- The held key of smallest index, if any key is held (R71, D15). -/
def lowestHeld (keys : Vector Bool 16) : Option (Fin 16) := (List.finRange 16).find? (fun k => keys[k])

end Sys2Proof.Machine
end

