-- ==== Sys2Proof/Machine/Alu.lean ====
section
/-! DEFINITION. Register load, arithmetic, logic, shift and random instructions (41_alu.md R80 to R93). PC has been advanced by the fetch (R75). -/

namespace Sys2Proof.Machine

/-- 6xkk LD Vx, kk (R82). -/
def execLdImm (x : Reg) (kk : Byte) (s : State) : Result := .next (s.setV x kk)

/-- 7xkk ADD Vx, kk: no flag (R83). -/
def execAddImm (x : Reg) (kk : Byte) (s : State) : Result := .next (s.setV x (s.v x + kk))

/-- 8xy0 LD Vx, Vy (R84). -/
def execLdReg (x y : Reg) (s : State) : Result := .next (s.setV x (s.v y))

/-- 8xy1 OR Vx, Vy: VF is not written (R85, D6). -/
def execOr (x y : Reg) (s : State) : Result := .next (s.setV x (s.v x ||| s.v y))

/-- 8xy2 AND Vx, Vy: VF is not written (R86, D6). -/
def execAnd (x y : Reg) (s : State) : Result := .next (s.setV x (s.v x &&& s.v y))

/-- 8xy3 XOR Vx, Vy: VF is not written (R87, D6). -/
def execXor (x y : Reg) (s : State) : Result := .next (s.setV x (s.v x ^^^ s.v y))

/-- 8xy4 ADD Vx, Vy: VF is the carry, written last (R88). -/
def execAddReg (x y : Reg) (s : State) : Result :=
  .next (s.setVFlag x (s.v x + s.v y) (carryFlag (s.v x) (s.v y)))

/-- 8xy5 SUB Vx, Vy: VF is not-borrow, written last (R89). -/
def execSub (x y : Reg) (s : State) : Result :=
  .next (s.setVFlag x (s.v x - s.v y) (notBorrowFlag (s.v x) (s.v y)))

/-- 8xy6 SHR Vx: Vy is decoded and ignored (R90, D5). -/
def execShr (x _y : Reg) (s : State) : Result :=
  .next (s.setVFlag x (s.v x >>> 1) (shiftedOutRight (s.v x)))

/-- 8xy7 SUBN Vx, Vy: `Vy - Vx`, VF is its not-borrow, written last (R91). -/
def execSubn (x y : Reg) (s : State) : Result :=
  .next (s.setVFlag x (s.v y - s.v x) (notBorrowFlag (s.v y) (s.v x)))

/-- 8xyE SHL Vx: Vy is decoded and ignored (R93, D5). -/
def execShl (x _y : Reg) (s : State) : Result :=
  .next (s.setVFlag x (s.v x <<< 1) (shiftedOutLeft (s.v x)))

/-- Cxkk RND Vx, kk: a free byte masked with kk (R92, D19; log 11). -/
def execRnd (x : Reg) (kk : Byte) (s : State) : Result :=
  .next ((s.setV x (Config.randomByte s.draws &&& kk)).countDraw)

end Sys2Proof.Machine
end

