-- ==== Sys2Proof/Machine/Display.lean ====
section
/-! DEFINITION. The display instructions (44_draw.md R121, R122). -/

namespace Sys2Proof.Machine

/-- 00E0 CLS (R121). -/
def execCls (s : State) : Result := .next (s.setFb clearFb)

/-- The framebuffer and VF after a sprite drawn at (V[x], V[y]); the coordinates are read before VF is written (R122). -/
def State.blit (s : State) (x y : Reg) (bytes : List Byte) : State :=
  let d := drawSprite (s.v x).toNat (s.v y).toNat bytes s.fb
  (s.setFb d.1).setV vF (collisionFlag d.2)

/-- Dxyn DRW Vx, Vy, n: n bytes from I, checked before the first pixel changes (R122, D12). -/
def execDrw (x y n : Reg) (s : State) : Result :=
  match readSpan s.mem s.base n.val with
  | .error e => .next (s.raiseInstr (.drw x y n) e)
  | .ok bytes => .next (s.blit x y bytes)

end Sys2Proof.Machine
end

