-- ==== Sys2Proof/Machine/Flow.lean ====
section
/-! DEFINITION. Jump, call and return instructions (43_flow.md R110 to R114). -/

namespace Sys2Proof.Machine

/-- 1nnn JP nnn (R110). -/
def execJp (nnn : Addr) (s : State) : Result := .next (s.setPc (addrWord nnn))

/-- Bnnn JP V0, nnn: the sum is not reduced (R112, D9). -/
def execJpV0 (nnn : Addr) (s : State) : Result := .next (s.setPc (jumpV0Target nnn (s.v 0)))

/-- 2nnn CALL nnn: push PC, which is the address after the CALL, and jump; StackOverflow if the stack is full (R111). -/
def execCall (nnn : Addr) (s : State) : Result :=
  match push s s.pc with
  | .error e => .next (s.raiseInstr (.call nnn) e)
  | .ok t => .next (t.setPc (addrWord nnn))

/-- 00EE RET: pop into PC; StackUnderflow if the stack is empty (R113). -/
def execRet (s : State) : Result :=
  match pop s with
  | .error e => .next (s.raiseInstr .ret e)
  | .ok (w, t) => .next (t.setPc w)

end Sys2Proof.Machine
end

