-- ==== Sys2Proof/Machine/IndexMemory.lean ====
section
/-! DEFINITION. Index register and memory instructions (46_index_memory.md R140 to R146). I is changed only by Annn, Fx1E and Fx29 (D8). -/

namespace Sys2Proof.Machine

/-- Annn LD I, nnn (R140). -/
def execLdI (nnn : Addr) (s : State) : Result := .next (s.setIndex (addrWord nnn))

/-- Fx1E ADD I, Vx: modulo 65536, no flag, no bounds check (R141, D10). -/
def execAddI (x : Reg) (s : State) : Result := .next (s.setIndex (s.index + (s.v x).setWidth 16))

/-- Fx29 LD F, Vx (R142). -/
def execLdFont (x : Reg) (s : State) : Result := .next (s.setIndex (glyphAddr (s.v x)))

/-- Store bytes at I on behalf of `i`, or raise with no byte written (R146, R176). -/
def storeAtI (i : Instr) (bytes : List Byte) (s : State) : Result :=
  match writeSpan s.mem s.base bytes with
  | .error e => .next (s.raiseInstr i e)
  | .ok m => .next (s.setMem m)

/-- Fx33 LD B, Vx (R143). -/
def execLdBcd (x : Reg) (s : State) : Result := storeAtI (.ldBcd x) (bcdDigits (s.v x)) s

/-- Fx55 LD [I], Vx (R144). -/
def execStRegs (x : Reg) (s : State) : Result := storeAtI (.stRegs x) (regsUpTo s x) s

/-- Fx65 LD Vx, [I] (R145). -/
def execLdRegs (x : Reg) (s : State) : Result :=
  match readSpan s.mem s.base (x.val + 1) with
  | .error e => .next (s.raiseInstr (.ldRegs x) e)
  | .ok bytes => .next { s with regs := loadRegs s.regs bytes }

end Sys2Proof.Machine
end

