-- ==== Sys2Proof/Machine/KeyTimer.lean ====
section
/-! DEFINITION. Timer and key-wait instructions, and the key-wait cycle (45_key_timer.md R130 to R135, 40_cpu_cycle.md R71). -/

namespace Sys2Proof.Machine

/-- Fx07 LD Vx, DT (R130). -/
def execLdVxDt (x : Reg) (s : State) : Result := .next (s.setV x s.dt)

/-- Fx15 LD DT, Vx (R131). -/
def execLdDtVx (x : Reg) (s : State) : Result := .next (s.setDt (s.v x))

/-- Fx18 LD ST, Vx (R132). -/
def execLdStVx (x : Reg) (s : State) : Result := .next (s.setSt (s.v x))

/-- Fx0A LD Vx, K: enter the wait; the keypad is not looked at in this cycle (R133, D16). -/
def execLdVxKey (x : Reg) (s : State) : Result := .next (s.setCpuState (.waitingForKey x))

/-- A key-wait cycle: nothing if no key is held; else capture the smallest held index and run again, PC unchanged (R71). -/
def keyWaitCycle (d : Reg) (s : State) : State :=
  match lowestHeld s.keys with
  | none => s
  | some k => (s.setV d (BitVec.ofNat 8 k.val)).setCpuState .running

end Sys2Proof.Machine
end

