-- ==== Sys2Proof/Machine/Skip.lean ====
section
/-! DEFINITION. Conditional skip instructions (42_skip.md R100 to R106). -/

namespace Sys2Proof.Machine

/-- 3xkk SE Vx, kk (R101). -/
def execSeImm (x : Reg) (kk : Byte) (s : State) : Result := .next (s.skipIf (s.v x == kk))

/-- 4xkk SNE Vx, kk (R102). -/
def execSneImm (x : Reg) (kk : Byte) (s : State) : Result := .next (s.skipIf (s.v x != kk))

/-- 5xy0 SE Vx, Vy (R103). -/
def execSeReg (x y : Reg) (s : State) : Result := .next (s.skipIf (s.v x == s.v y))

/-- 9xy0 SNE Vx, Vy (R104). -/
def execSneReg (x y : Reg) (s : State) : Result := .next (s.skipIf (s.v x != s.v y))

/-- Ex9E SKP Vx: the key of the low nibble is held (R105, D14). -/
def execSkp (x : Reg) (s : State) : Result := .next (s.skipIf (keyHeld s (s.v x)))

/-- ExA1 SKNP Vx: the key of the low nibble is not held (R106, D14). -/
def execSknp (x : Reg) (s : State) : Result := .next (s.skipIf (!keyHeld s (s.v x)))

end Sys2Proof.Machine
end

