-- ==== Sys2Proof/Machine/Unknown.lean ====
section
/-! DEFINITION. Undecodable words, SYS among them (47_unknown_sys.md R150, R151). -/

namespace Sys2Proof.Machine

/-- `Unknown(op)`: under `Fatal` raise UnknownOpcode(op); under `Nop` nothing, PC having been advanced (R150). -/
def execUnknown (op : Word) (s : State) : Result :=
  match s.policy with
  | .fatal => .next (s.raiseInstr (.unknown op) (.unknownOpcode op))
  | .nop => .next s

end Sys2Proof.Machine
end

