-- ==== Sys2Proof/Machine/Step.lean ====
section
/-! DEFINITION. One step is one CPU cycle (40_cpu_cycle.md R70). -/

namespace Sys2Proof.Machine

/-- `Cycle()` (R70): a key-wait cycle while waiting (R71); else fetch, advance PC, decode, execute (R72 to R74). An error is
recorded in the fault latch of the next state (R175). On a machine whose latch is set no cycle runs (R22, R177). -/
def step (s : State) : Host.Outcome State Fault Refusal :=
  match s.fault with
  | some r => .fault (.machineStopped r)
  | none =>
    match s.cpuState with
    | .waitingForKey d => .next (keyWaitCycle d s)
    | .running =>
      match fetch s with
      | .error e => .next (s.raiseFetch e)
      | .ok (op, t) => exec (decode op) t

/-- The state with the table word stored where `step` fetches its next instruction (log 2). -/
def State.withFetchWord (s : State) (nbits w : Nat) : State := s.placeWord (tableWord nbits w)

end Sys2Proof.Machine
end

