-- ==== Sys2Proof/Machine/HostOps.lean ====
section
/-! DEFINITION. The host operations and the timer tick (48_host_frame.md R155 to R161, 70_reset_and_hazards.md R190 to R192). -/

namespace Sys2Proof.Machine

/-- What a host operation returns beside its data (R155, R170). -/
inductive HostStatus where
  | ok
  /-- `run_frame` stopped by, or refused because of, a fatal error (R157). -/
  | fault (r : FaultRecord)
  /-- `load` of more than 3584 bytes (R191). -/
  | romTooLarge
  /-- `key_event` with an index above 15 (R160). -/
  | invalidKeyIndex
deriving DecidableEq, Repr

/-- The memory after `load`: zero, the font, and the ROM from 0x200 (R38, R190). -/
def romMemory (rom : List Byte) : Memory := Memory.setSpan [] Config.progBase rom

/-- `load(rom)` (R190, R191): a ROM of more than 3584 bytes changes nothing; else everything is reset. The parameter
`policy` and the model's own `draws` are kept (log 6, 11, 24). -/
def loadRom (rom : List Byte) (s : State) : State × HostStatus :=
  if Config.romMax < rom.length then (s, .romTooLarge)
  else ({ State.reset with mem := romMemory rom, policy := s.policy, draws := s.draws }, .ok)

/-- `TimerTick()` for one timer: down by one, floored at zero (R158). -/
def tickByte (t : Byte) : Byte := if 0 < t.toNat then t - 1 else t

/-- `TimerTick()` (R158). -/
def timerTick (s : State) : State := { s with dt := tickByte s.dt, st := tickByte s.st }

/-- `max(1, clock_hz / 60)` (R156). -/
def cyclesPerFrame (clockHz : Nat) : Nat := max 1 (clockHz / Config.timerHz)

/-- Up to `k` cycles, stopping after one that sets the fault latch (R157). -/
def runCycles : Nat → State → Result
  | 0, s => .next s
  | k + 1, s =>
    match step s with
    | .next t => if t.fault.isSome then .next t else runCycles k t
    | .fault r => .fault r
    | .refused r => .refused r

/-- The end of a frame: the recorded fault and no tick, or the tick and ok (R157). -/
def endFrame (s : State) : State × HostStatus :=
  match s.fault with
  | some r => (s, .fault r)
  | none => (timerTick s, .ok)

/-- `run_frame(clock_hz)` (R157). On a faulted machine nothing runs. -/
def runFrame (clockHz : Nat) (s : State) : Host.Outcome (State × HostStatus) Fault Refusal :=
  match s.fault with
  | some r => .next (s, .fault r)
  | none =>
    match runCycles (cyclesPerFrame clockHz) s with
    | .next t => .next (endFrame t)
    | .fault r => .fault r
    | .refused r => .refused r

/-- `key_event(index, down)` (R160). -/
def keyEvent (index : Nat) (down : Bool) (s : State) : State × HostStatus :=
  if h : index < 16 then ({ s with keys := s.keys.set index down }, .ok) else (s, .invalidKeyIndex)

/-- `snapshot_framebuffer()` (R159): the grid, the state unchanged. -/
def snapshotFramebuffer (s : State) : Framebuffer := s.fb

/-- The host's moves (R155, R161): no two overlap. -/
inductive HostMove where
  | load (rom : List Byte)
  | runFrame (clockHz : Nat)
  | keyEvent (index : Nat) (down : Bool)
  | snapshot
deriving DecidableEq, Repr

/-- What a host move gives back: the status, and the grid for a snapshot (R155). -/
structure HostReply where
  status : HostStatus
  grid : Option Framebuffer
deriving DecidableEq, Repr

/-- The reply of an operation that returns only a status. -/
def statusReply (p : State × HostStatus) : State × HostReply := (p.1, { status := p.2, grid := none })

/-- One host move (R161). -/
def hostMove (m : HostMove) (s : State) : Host.Outcome (State × HostReply) Fault Refusal :=
  match m with
  | .load rom => .next (statusReply (loadRom rom s))
  | .runFrame hz =>
    match Sys2Proof.Machine.runFrame hz s with
    | .next p => .next (statusReply p)
    | .fault r => .fault r
    | .refused r => .refused r
  | .keyEvent k down => .next (statusReply (Sys2Proof.Machine.keyEvent k down s))
  | .snapshot => .next (s, { status := .ok, grid := some (snapshotFramebuffer s) })

end Sys2Proof.Machine
end

