-- ==== Sys2Proof/Safety.lean ====
section
/-! DEFINITION. The terms claims are stated in: sound states, the end of a run, the invariant, reachability, and frames. -/

namespace Sys2Proof.Machine

/-- The machine is sound: no fatal error has been recorded (R22). -/
abbrev State.sound (s : State) : Prop := s.fault = none

/-- The CPU is about to fetch: sound and running (R70). -/
abbrev State.fetching (s : State) : Prop := s.fault = none ∧ s.cpuState = .running

/-- The end of a run, by the spec's convention (R199, D28): sound, running, and the word at PC is a jump to PC. -/
abbrev State.ended (s : State) : Prop :=
  s.fetching ∧ readWord s.mem s.pc.toNat = .ok (0x1000 + s.pc) ∧ s.pc.toNat < Config.memSize

/-- The invariant: the memory is in canonical form, PC never passes 0x10FE and no stacked return address passes 0x1000
(R16). -/
abbrev State.inv (s : State) : Prop :=
  s.mem.wf ∧ s.pc.toNat ≤ 0x10FE ∧ ∀ j : Fin 16, s.stack[j].toNat ≤ 0x1000

/-- The states a host can bring the machine to by its moves (R161), from the construction state (R192) with either policy. -/
inductive Reachable : State → Prop where
  | start (p : Config.UnknownOpcodePolicy) : Reachable { State.reset with policy := p }
  | move (m : HostMove) (s t : State) (reply : HostReply) :
      Reachable s → hostMove m s = .next (t, reply) → Reachable t

/-! ## Frames: what an instruction leaves unchanged -/

/-- Every byte of memory reads as before. -/
abbrev sameBytes (s t : State) : Prop := ∀ a : Nat, t.mem.get a = s.mem.get a

/-- Every byte of memory outside `base .. base + n - 1` reads as before. -/
abbrev sameBytesOutside (base n : Nat) (s t : State) : Prop :=
  ∀ a : Nat, a < base ∨ base + n ≤ a → t.mem.get a = s.mem.get a

/-- Only general registers may differ: PC, I, the stack, the timers, the framebuffer, the keys, the run state, the fault
latch and all of memory are as before. -/
abbrev onlyRegs (s t : State) : Prop := t = { s with regs := t.regs } ∧ sameBytes s t

/-- Every general register but those listed is as before. -/
abbrev sameRegsExcept (xs : List Reg) (s t : State) : Prop := ∀ r : Reg, r ∉ xs → t.v r = s.v r

/-- The instruction completes: it writes the number `result` to V[x] and changes nothing else, VF included unless x = 15. -/
abbrev writesReg (i : Instr) (s : State) (x : Reg) (result : Nat) : Prop :=
  ∃ t, exec i s = .next t ∧ (t.v x).toNat = result ∧ sameRegsExcept [x] s t ∧ onlyRegs s t

/-- The instruction completes: it writes the number `result` to V[x] and the number `flag` to VF, the flag last, so that
with x = 15 the result is lost; it changes nothing else. -/
abbrev writesRegAndFlag (i : Instr) (s : State) (x : Reg) (result flag : Nat) : Prop :=
  ∃ t, exec i s = .next t ∧ (x ≠ vF → (t.v x).toNat = result) ∧ (t.v vF).toNat = flag ∧
    sameRegsExcept [x, vF] s t ∧ onlyRegs s t

/-- The instruction completes: PC, already advanced by the fetch, is advanced by 2 more if the condition holds and is left
alone if not; nothing else changes. -/
abbrev skipsIf (i : Instr) (s : State) (c : Prop) : Prop :=
  ∃ t, exec i s = .next t ∧ (c → t.pc = s.pc + 2) ∧ (¬c → t.pc = s.pc) ∧ t = { s with pc := t.pc } ∧ sameBytes s t

/-- The instruction completes: PC is the number `target`, and nothing else changes. -/
abbrev jumpsTo (i : Instr) (s : State) (target : Nat) : Prop :=
  ∃ t, exec i s = .next t ∧ t.pc.toNat = target ∧ t = { s with pc := t.pc } ∧ sameBytes s t

/-- The instruction completes: I is the number `value`, and nothing else changes. -/
abbrev setsIndex (i : Instr) (s : State) (value : Nat) : Prop :=
  ∃ t, exec i s = .next t ∧ t.index.toNat = value ∧ t = { s with index := t.index } ∧ sameBytes s t

/-- The instruction raises the error: the fault latch takes the record of R171 (the instruction's address, PC - 2, and its
word), and nothing else changes, PC included, which the fetch has advanced (R175, R176). -/
abbrev raises (i : Instr) (s : State) (e : RunError) : Prop :=
  ∃ t, exec i s = .next t ∧ t.fault = some { error := e, address := s.pc - 2, word := some (encode i) } ∧
    t = { s with fault := t.fault } ∧ sameBytes s t

end Sys2Proof.Machine

namespace Sys2Proof

/-! ## The instruction families of whole-machine statements -/

/-- The destination and the sources of an instruction of the arithmetic family, and whether it defines VF (41_alu.md R80);
none for every other instruction. A form with no Vy has `x` for it. -/
def Instr.aluForm : Instr → Option (Reg × Reg × Bool)
  | .ldImm x _ => some (x, x, false)
  | .addImm x _ => some (x, x, false)
  | .ldReg x y => some (x, y, false)
  | .or x y => some (x, y, false)
  | .and x y => some (x, y, false)
  | .xor x y => some (x, y, false)
  | .addReg x y => some (x, y, true)
  | .sub x y => some (x, y, true)
  | .shr x _ => some (x, x, true)
  | .subn x y => some (x, y, true)
  | .shl x _ => some (x, x, true)
  | .rnd x _ => some (x, x, false)
  | .unknown _ => none
  | .cls => none
  | .ret => none
  | .jp _ => none
  | .call _ => none
  | .seImm _ _ => none
  | .sneImm _ _ => none
  | .seReg _ _ => none
  | .sneReg _ _ => none
  | .ldI _ => none
  | .jpV0 _ => none
  | .drw _ _ _ => none
  | .skp _ => none
  | .sknp _ => none
  | .ldVxDt _ => none
  | .ldVxKey _ => none
  | .ldDtVx _ => none
  | .ldStVx _ => none
  | .addI _ => none
  | .ldFont _ => none
  | .ldBcd _ => none
  | .stRegs _ => none
  | .ldRegs _ => none

/-- The instruction may write V[r]: r is its destination, or it defines VF, or it is Fx65 with r in V0..Vx (R12; the
"written by" column of 10_state.md section 1). -/
def Instr.writesV (r : Reg) : Instr → Bool
  | .ldImm x _ => r = x
  | .addImm x _ => r = x
  | .ldReg x _ => r = x
  | .or x _ => r = x
  | .and x _ => r = x
  | .xor x _ => r = x
  | .addReg x _ => r = x || r = vF
  | .sub x _ => r = x || r = vF
  | .shr x _ => r = x || r = vF
  | .subn x _ => r = x || r = vF
  | .shl x _ => r = x || r = vF
  | .rnd x _ => r = x
  | .drw _ _ _ => r = vF
  | .ldVxDt x => r = x
  | .ldRegs x => r ≤ x
  | .unknown _ => false
  | .cls => false
  | .ret => false
  | .jp _ => false
  | .call _ => false
  | .seImm _ _ => false
  | .sneImm _ _ => false
  | .seReg _ _ => false
  | .sneReg _ _ => false
  | .ldI _ => false
  | .jpV0 _ => false
  | .skp _ => false
  | .sknp _ => false
  | .ldVxKey _ => false
  | .ldDtVx _ => false
  | .ldStVx _ => false
  | .addI _ => false
  | .ldFont _ => false
  | .ldBcd _ => false
  | .stRegs _ => false

/-- The instruction may write PC: a jump, a call, a return or a skip (R114). -/
def Instr.writesPc : Instr → Bool
  | .jp _ => true
  | .call _ => true
  | .ret => true
  | .jpV0 _ => true
  | .seImm _ _ => true
  | .sneImm _ _ => true
  | .seReg _ _ => true
  | .sneReg _ _ => true
  | .skp _ => true
  | .sknp _ => true
  | .unknown _ => false
  | .cls => false
  | .ldImm _ _ => false
  | .addImm _ _ => false
  | .ldReg _ _ => false
  | .or _ _ => false
  | .and _ _ => false
  | .xor _ _ => false
  | .addReg _ _ => false
  | .sub _ _ => false
  | .shr _ _ => false
  | .subn _ _ => false
  | .shl _ _ => false
  | .ldI _ => false
  | .rnd _ _ => false
  | .drw _ _ _ => false
  | .ldVxDt _ => false
  | .ldVxKey _ => false
  | .ldDtVx _ => false
  | .ldStVx _ => false
  | .addI _ => false
  | .ldFont _ => false
  | .ldBcd _ => false
  | .stRegs _ => false
  | .ldRegs _ => false

end Sys2Proof
end

