-- ==== Sys2Proof/Certificates/Slice0/Obligations.lean ====
section
/-! DEFINITION. The statements for the provers. Each docstring names the rule of spec/ it formalises; "log <n>" is a row of notes/assumptions; "D<n>" a decision of spec/92_eei_decisions.md. -/

open Sys2Proof Sys2Proof.Machine

/-! ## Encoding -/

/-- The words of spec/95_test_vectors.md E1 to E40 decode to the variants and fields that table gives. -/
def Obligations.DecodeOfTableWords : Prop :=
  (decode 0x00E0 = .cls ∧ decode 0x00EE = .ret ∧ decode 0x1ABC = .jp 0xABC ∧ decode 0x2ABC = .call 0xABC ∧
    decode 0x3A42 = .seImm 0xA 0x42 ∧ decode 0x4A42 = .sneImm 0xA 0x42 ∧ decode 0x5AB0 = .seReg 0xA 0xB ∧
    decode 0x6A42 = .ldImm 0xA 0x42 ∧ decode 0x7A42 = .addImm 0xA 0x42) ∧
  (decode 0x8AB0 = .ldReg 0xA 0xB ∧ decode 0x8AB1 = .or 0xA 0xB ∧ decode 0x8AB2 = .and 0xA 0xB ∧
    decode 0x8AB3 = .xor 0xA 0xB ∧ decode 0x8AB4 = .addReg 0xA 0xB ∧ decode 0x8AB5 = .sub 0xA 0xB ∧
    decode 0x8AB6 = .shr 0xA 0xB ∧ decode 0x8AB7 = .subn 0xA 0xB ∧ decode 0x8ABE = .shl 0xA 0xB ∧
    decode 0x9AB0 = .sneReg 0xA 0xB) ∧
  (decode 0xA123 = .ldI 0x123 ∧ decode 0xB123 = .jpV0 0x123 ∧ decode 0xC3F0 = .rnd 3 0xF0 ∧
    decode 0xDAB5 = .drw 0xA 0xB 5 ∧ decode 0xE19E = .skp 1 ∧ decode 0xE1A1 = .sknp 1 ∧ decode 0xF307 = .ldVxDt 3 ∧
    decode 0xF30A = .ldVxKey 3 ∧ decode 0xF315 = .ldDtVx 3 ∧ decode 0xF318 = .ldStVx 3) ∧
  (decode 0xF31E = .addI 3 ∧ decode 0xF329 = .ldFont 3 ∧ decode 0xF333 = .ldBcd 3 ∧ decode 0xF355 = .stRegs 3 ∧
    decode 0xF365 = .ldRegs 3) ∧
  (decode 0x0000 = .unknown 0x0000 ∧ decode 0x0123 = .unknown 0x0123 ∧ decode 0x01E0 = .unknown 0x01E0 ∧
    decode 0x5AB1 = .unknown 0x5AB1 ∧ decode 0x8AB8 = .unknown 0x8AB8 ∧ decode 0x9AB1 = .unknown 0x9AB1 ∧
    decode 0xE19F = .unknown 0xE19F ∧ decode 0xF300 = .unknown 0xF300)

/-- Decoding the word of a well-formed instruction, with every operand at every value, gives the instruction back; from its
bytes in memory order too, with the bytes after it left over (R34, R50, R57). -/
def Obligations.EncodeThenDecodeGivesInstruction : Prop :=
  ∀ (i : Instr) (rest : List Byte), i.wellFormed = true →
    decode (encode i) = i ∧ decodeBytes (wordBytes (encode i) ++ rest) = .ok (i, rest)

/-- Every one of the 65536 words decodes to a well-formed instruction, and no bit of the word is lost (R54). -/
def Obligations.DecodeThenEncodeGivesWord : Prop :=
  ∀ op : Word, (decode op).wellFormed = true ∧ encode (decode op) = op

/-- The decoder is the opcode map: each row's words, and no others, decode to the row's variant, with the fields at the
row's bit positions, and every other word to `Unknown` of itself (R56 rows 2 to 35, R58; exact matching is D3, the
assignment of group 8's low nibbles is D4, log 12 and 13). -/
def Obligations.DecodeFollowsOpcodeMap : Prop :=
  ∀ (op : Word) (x y n : Reg) (kk : Byte) (nnn : Addr),
    x.val = op.toNat / 256 % 16 → y.val = op.toNat / 16 % 16 → n.val = op.toNat % 16 →
    kk.toNat = op.toNat % 256 → nnn.toNat = op.toNat % 4096 →
    (op &&& 0xFFFF = 0x00E0 → decode op = .cls) ∧
    (op &&& 0xFFFF = 0x00EE → decode op = .ret) ∧
    (op &&& 0xF000 = 0x1000 → decode op = .jp nnn) ∧
    (op &&& 0xF000 = 0x2000 → decode op = .call nnn) ∧
    (op &&& 0xF000 = 0x3000 → decode op = .seImm x kk) ∧
    (op &&& 0xF000 = 0x4000 → decode op = .sneImm x kk) ∧
    (op &&& 0xF00F = 0x5000 → decode op = .seReg x y) ∧
    (op &&& 0xF000 = 0x6000 → decode op = .ldImm x kk) ∧
    (op &&& 0xF000 = 0x7000 → decode op = .addImm x kk) ∧
    (op &&& 0xF00F = 0x8000 → decode op = .ldReg x y) ∧
    (op &&& 0xF00F = 0x8001 → decode op = .or x y) ∧
    (op &&& 0xF00F = 0x8002 → decode op = .and x y) ∧
    (op &&& 0xF00F = 0x8003 → decode op = .xor x y) ∧
    (op &&& 0xF00F = 0x8004 → decode op = .addReg x y) ∧
    (op &&& 0xF00F = 0x8005 → decode op = .sub x y) ∧
    (op &&& 0xF00F = 0x8006 → decode op = .shr x y) ∧
    (op &&& 0xF00F = 0x8007 → decode op = .subn x y) ∧
    (op &&& 0xF00F = 0x800E → decode op = .shl x y) ∧
    (op &&& 0xF00F = 0x9000 → decode op = .sneReg x y) ∧
    (op &&& 0xF000 = 0xA000 → decode op = .ldI nnn) ∧
    (op &&& 0xF000 = 0xB000 → decode op = .jpV0 nnn) ∧
    (op &&& 0xF000 = 0xC000 → decode op = .rnd x kk) ∧
    (op &&& 0xF000 = 0xD000 → decode op = .drw x y n) ∧
    (op &&& 0xF0FF = 0xE09E → decode op = .skp x) ∧
    (op &&& 0xF0FF = 0xE0A1 → decode op = .sknp x) ∧
    (op &&& 0xF0FF = 0xF007 → decode op = .ldVxDt x) ∧
    (op &&& 0xF0FF = 0xF00A → decode op = .ldVxKey x) ∧
    (op &&& 0xF0FF = 0xF015 → decode op = .ldDtVx x) ∧
    (op &&& 0xF0FF = 0xF018 → decode op = .ldStVx x) ∧
    (op &&& 0xF0FF = 0xF01E → decode op = .addI x) ∧
    (op &&& 0xF0FF = 0xF029 → decode op = .ldFont x) ∧
    (op &&& 0xF0FF = 0xF033 → decode op = .ldBcd x) ∧
    (op &&& 0xF0FF = 0xF055 → decode op = .stRegs x) ∧
    (op &&& 0xF0FF = 0xF065 → decode op = .ldRegs x) ∧
    (namedWord op = false → decode op = .unknown op)

/-! ## Memory -/

/-- No access has an alignment requirement: a byte read and a byte write succeed at every address of memory and a word read
at every address from 0x000 to 0xFFE, odd or even; the word is the two bytes, high byte at the lower address (R34, R35). -/
def Obligations.ReadsNeedNoAlignment : Prop :=
  ∀ (m : Memory) (a : Nat) (v : Byte),
    (a < 4096 → readByte m a = .ok (m.get a)) ∧
    (a < 4096 → ∃ m', writeByte m a v = .ok m' ∧ m'.get a = v) ∧
    (a < 4095 → ∃ w, readWord m a = .ok w ∧ w.toNat = (m.get a).toNat * 256 + (m.get (a + 1)).toNat)

/-- An access outside memory raises AddressOutOfBounds with the lowest out-of-range address: a byte read or write at 4096 or
more, a word read at 4095 or more, a span that reaches past 4095 (R32; which address is carried is D20, log 10). A write in
range succeeds and writes that byte alone. -/
def Obligations.AccessesAreBoundsChecked : Prop :=
  ∀ (m : Memory) (a : Nat) (v : Byte),
    (4096 ≤ a → readByte m a = .error (.addressOutOfBounds a) ∧ writeByte m a v = .error (.addressOutOfBounds a)) ∧
    (4095 ≤ a → readWord m a = .error (.addressOutOfBounds (max a 4096))) ∧
    (a < 4096 → ∃ m', writeByte m a v = .ok m' ∧ m'.get a = v ∧ ∀ c, c ≠ a → m'.get c = m.get c) ∧
    (∀ n, 0 < n → 4096 < a + n → readSpan m a n = .error (.addressOutOfBounds (max a 4096))) ∧
    (∀ vs, 0 < vs.length → 4096 < a + vs.length → writeSpan m a vs = .error (.addressOutOfBounds (max a 4096)))

/-- Equal memories are equal data: two memories in canonical form that read the same at every address of memory are equal
(log 4). -/
def Obligations.CanonicalMemoriesWithSameBytesAreEqual : Prop :=
  ∀ m m' : Memory, m.wf → m'.wf → (∀ a, a < 4096 → m.get a = m'.get a) → m = m'

/-! ## The cycle -/

/-- A step of a fetching machine is the execution of the instruction whose bytes stand at PC, with PC advanced past them
(R70, R72, R75). -/
def Obligations.StepRunsTheDecodedInstruction : Prop :=
  ∀ (s : State) (i : Instr), s.fetching → s.pc.toNat + 1 < 4096 → i.wellFormed = true →
    decodeBytes [s.mem.get s.pc.toNat, s.mem.get (s.pc.toNat + 1)] = .ok (i, []) →
    step s = exec i { s with pc := s.pc + 2 }

/-- After withFetchWord, from every state, the very next step executes the placed word's instruction with PC advanced; a
state that can already fetch keeps its PC (log 2: the model's own loader, no rule). -/
def Obligations.PlacedWordRunsNext : Prop :=
  ∀ (s : State) (op : Word), ∃ p : Word, p.toNat ≤ 0xFFE ∧ (s.pc.toNat ≤ 0xFFE → p = s.pc) ∧
    (s.withFetchWord 16 op.toNat).pc = p ∧
    step (s.withFetchWord 16 op.toNat) =
      exec (decode op) { s.withFetchWord 16 op.toNat with pc := p + 2 }

/-- A fetch at PC >= 4095 raises AddressOutOfBounds with PC or 4096 and changes nothing but the fault latch: PC keeps its
value and the record has no word (R72; PC unchanged is D12, the record's shape D20: log 8, 9). -/
def Obligations.FetchOutOfBoundsRaises : Prop :=
  ∀ s : State, s.fetching → 4095 ≤ s.pc.toNat →
    ∃ t, step s = .next t ∧ t = { s with fault := t.fault } ∧ sameBytes s t ∧
      t.fault = some { error := .addressOutOfBounds (if 4096 ≤ s.pc.toNat then s.pc.toNat else 4096),
                       address := s.pc, word := none }

/-- A key-wait cycle with no key held changes nothing; with a key held it writes the smallest held index to the destination,
runs again, and leaves PC and everything else unchanged (R71; the smallest index is D15, log 22). -/
def Obligations.KeyWaitCapturesSmallestHeldKey : Prop :=
  ∀ (s : State) (d : Reg), s.fault = none → s.cpuState = .waitingForKey d →
    ((∀ k : Fin 16, s.keys[k] = false) → step s = .next s) ∧
    (∀ k : Fin 16, s.keys[k] = true → (∀ j : Fin 16, j < k → s.keys[j] = false) →
      ∃ t, step s = .next t ∧ (t.v d).toNat = k.val ∧ sameRegsExcept [d] s t ∧
        t = { s with regs := t.regs, cpuState := .running } ∧ sameBytes s t)

/-- No cycle runs exactly when the fault latch is set, and the answer is then the record; on a sound machine every step
answers a next state: nothing is refused (R22, R177; the latch is D21, log 7). -/
def Obligations.StepAnswersUnlessStopped : Prop :=
  (∀ (s : State) (r : FaultRecord), s.fault = some r → step s = .fault (.machineStopped r)) ∧
  (∀ s : State, s.fault = none → ∃ t, step s = .next t)

/-- Errors are precise: a step of a sound machine that ends with the fault latch set has changed nothing else, except PC,
advanced by 2 if the fetch succeeded; the record holds the address of the instruction, and the fetched word if the fetch
succeeded (R171, R175, R176; no partial effect is D12, the record's shape D20: log 8, 9). -/
def Obligations.FaultingStepHasNoPartialEffect : Prop :=
  ∀ (s t : State) (r : FaultRecord), s.fault = none → step s = .next t → t.fault = some r →
    r.address = s.pc ∧ sameBytes s t ∧
    ((r.word = none ∧ 4095 ≤ s.pc.toNat ∧ t = { s with fault := t.fault }) ∨
      (s.pc.toNat < 4095 ∧ r.word = some (s.mem.get s.pc.toNat ++ s.mem.get (s.pc.toNat + 1)) ∧
        t = { s with pc := s.pc + 2, fault := t.fault }))

/-- Execute touches nothing but what the executed instruction writes, for every field of the state: timers and run state only
by their own instructions, the keypad and the policy by none, I by three, the stack by two, memory by two, the framebuffer
by two, PC by jumps and skips, a general register by the instructions that name it, VF also by those that define it; and
every variant has a rule (R74, R114; the "written by" column of 10_state.md section 1; VF and I untouched are D6 and D8, the draw
counter the model's: log 11, 15, 17). -/
def Obligations.OnlyTheListedInstructionsWriteEachField : Prop :=
  ∀ (i : Instr) (s : State), ∃ t, exec i s = .next t ∧
    (t.index ≠ s.index → (∃ nnn, i = .ldI nnn) ∨ (∃ x, i = .addI x) ∨ ∃ x, i = .ldFont x) ∧
    (t.pc ≠ s.pc → i.writesPc = true) ∧
    (t.sp ≠ s.sp → (∃ nnn, i = .call nnn) ∨ i = .ret) ∧
    (t.stack ≠ s.stack → ∃ nnn, i = .call nnn) ∧
    (t.dt ≠ s.dt → ∃ x, i = .ldDtVx x) ∧
    (t.st ≠ s.st → ∃ x, i = .ldStVx x) ∧
    (t.mem ≠ s.mem → (∃ x, i = .ldBcd x) ∨ ∃ x, i = .stRegs x) ∧
    (t.fb ≠ s.fb → i = .cls ∨ ∃ x y n, i = .drw x y n) ∧
    t.keys = s.keys ∧ t.policy = s.policy ∧
    (t.cpuState ≠ s.cpuState → ∃ x, i = .ldVxKey x) ∧
    (t.fault ≠ s.fault → (∃ op, i = .unknown op) ∨ i = .ret ∨ (∃ nnn, i = .call nnn) ∨ (∃ x y n, i = .drw x y n) ∨
      (∃ x, i = .ldBcd x) ∨ (∃ x, i = .stRegs x) ∨ ∃ x, i = .ldRegs x) ∧
    (t.draws ≠ s.draws → ∃ x kk, i = .rnd x kk) ∧
    (∀ r : Reg, t.v r ≠ s.v r → i.writesV r = true)

/-! ## Arithmetic and logic -/

/-- The arithmetic family touches no memory, framebuffer, key, stack, I or timer and raises nothing; it writes only V[x] and,
where it defines VF, VF; and what it writes depends on V[x] and V[y] alone, as they were before, and for Cxkk on the byte
drawn (R80; sources read first is D7, the draw counter the model's: log 11, 16). -/
def Obligations.AluInstructionsUseOnlyTheirRegisters : Prop :=
  ∀ (i : Instr) (x y : Reg) (flag : Bool), i.aluForm = some (x, y, flag) →
    (∀ s : State, ∃ t, exec i s = .next t ∧ t = { s with regs := t.regs, draws := t.draws } ∧ sameBytes s t ∧
      sameRegsExcept (if flag then [x, vF] else [x]) s t) ∧
    (∀ s s' t t' : State, s.v x = s'.v x → s.v y = s'.v y → s.draws = s'.draws →
      exec i s = .next t → exec i s' = .next t' → t.v x = t'.v x ∧ (flag = true → t.v vF = t'.v vF))

/-- 6xkk loads the immediate (R82; the instruction is G1, log 13). -/
def Obligations.LdImmLoadsImmediate : Prop :=
  ∀ (x : Reg) (kk : Byte) (s : State), writesReg (.ldImm x kk) s x kk.toNat

/-- 7xkk adds modulo 256 and writes no flag (R83; the instruction is G2, log 13). -/
def Obligations.AddImmWrapsWithoutFlag : Prop :=
  ∀ (x : Reg) (kk : Byte) (s : State), writesReg (.addImm x kk) s x (((s.v x).toNat + kk.toNat) % 256)

/-- 8xy0 to 8xy3 copy, or, and, exclusive-or; VF is not written unless x = 15 (R84 to R87; VF untouched is D6, log 15). -/
def Obligations.CopyAndLogicLeaveVF : Prop :=
  ∀ (x y : Reg) (s : State),
    writesReg (.ldReg x y) s x (s.v y).toNat ∧
    writesReg (.or x y) s x ((s.v x).toNat ||| (s.v y).toNat) ∧
    writesReg (.and x y) s x ((s.v x).toNat &&& (s.v y).toNat) ∧
    writesReg (.xor x y) s x ((s.v x).toNat ^^^ (s.v y).toNat)

/-- 8xy4: the sum modulo 256, and VF = 1 exactly if the sum exceeds 255 (R81, R88; the flag last is D7, log 16). -/
def Obligations.AddRegSetsCarry : Prop :=
  ∀ (x y : Reg) (s : State),
    writesRegAndFlag (.addReg x y) s x (((s.v x).toNat + (s.v y).toNat) % 256)
      (if 255 < (s.v x).toNat + (s.v y).toNat then 1 else 0)

/-- 8xy5: Vx - Vy modulo 256, and VF = 1 exactly if there is no borrow (R81, R89; the flag last is D7, log 16). -/
def Obligations.SubSetsNotBorrow : Prop :=
  ∀ (x y : Reg) (s : State),
    writesRegAndFlag (.sub x y) s x (((s.v x).toNat + 256 - (s.v y).toNat) % 256)
      (if (s.v y).toNat ≤ (s.v x).toNat then 1 else 0)

/-- 8xy7: Vy - Vx modulo 256, and VF = 1 exactly if there is no borrow (R81, R91; the flag last is D7, log 16). -/
def Obligations.SubnSetsNotBorrow : Prop :=
  ∀ (x y : Reg) (s : State),
    writesRegAndFlag (.subn x y) s x (((s.v y).toNat + 256 - (s.v x).toNat) % 256)
      (if (s.v x).toNat ≤ (s.v y).toNat then 1 else 0)

/-- 8xy6: Vx shifted right by one in place, VF = its old bit 0; Vy plays no part (R90; D5, D7: log 14, 16). -/
def Obligations.ShrShiftsVxInPlace : Prop :=
  ∀ (x y : Reg) (s : State), writesRegAndFlag (.shr x y) s x ((s.v x).toNat / 2) ((s.v x).toNat % 2)

/-- 8xyE: Vx shifted left by one in place, VF = its old bit 7; Vy plays no part (R93; D5, D7: log 14, 16). -/
def Obligations.ShlShiftsVxInPlace : Prop :=
  ∀ (x y : Reg) (s : State), writesRegAndFlag (.shl x y) s x ((s.v x).toNat * 2 % 256) ((s.v x).toNat / 128)

/-- Cxkk: V[x] is the free byte of this draw masked with kk, so every bit that kk has 0 is 0; nothing else of the machine
changes, and the model counts the draw (R92; the free byte is D19, log 11: the statement holds whatever the byte is). -/
def Obligations.RndMasksAFreeByte : Prop :=
  ∀ (x : Reg) (kk : Byte) (s : State), ∃ t, exec (.rnd x kk) s = .next t ∧
    t.v x = Config.randomByte s.draws &&& kk ∧ (∀ b < 8, kk.getLsbD b = false → (t.v x).getLsbD b = false) ∧
    sameRegsExcept [x] s t ∧ t = { s with regs := t.regs, draws := s.draws + 1 } ∧ sameBytes s t

/-! ## Skips -/

/-- 3xkk: the encoding, the skip exactly if V[x] = kk, and in a whole step from the fetch PC advances by 4 or by 2; nothing
but PC is written (R101). -/
def Obligations.SeImmSkipsWhenEqual : Prop :=
  (∀ op : Word, op.toNat / 4096 = 3 → ∃ (x : Reg) (kk : Byte),
    x.val = op.toNat / 256 % 16 ∧ kk.toNat = op.toNat % 256 ∧ decode op = .seImm x kk) ∧
  (∀ (x : Reg) (kk : Byte) (s : State), skipsIf (.seImm x kk) s ((s.v x).toNat = kk.toNat)) ∧
  (∀ (x : Reg) (kk : Byte) (s : State), s.fetching → s.pc.toNat + 1 < 4096 →
    s.mem.get s.pc.toNat ++ s.mem.get (s.pc.toNat + 1) = encode (.seImm x kk) →
    ∃ t, step s = .next t ∧ t.pc.toNat = s.pc.toNat + (if s.v x = kk then 4 else 2) ∧
      t = { s with pc := t.pc } ∧ sameBytes s t)

/-- 4xkk skips if V[x] differs from kk, 5xy0 if V[x] = V[y], 9xy0 if V[x] differs from V[y] (R102 to R104; the polarity is
G8, log 13). -/
def Obligations.RegisterSkipsFollowTheirPolarity : Prop :=
  ∀ (x y : Reg) (kk : Byte) (s : State),
    skipsIf (.sneImm x kk) s ((s.v x).toNat ≠ kk.toNat) ∧
    skipsIf (.seReg x y) s ((s.v x).toNat = (s.v y).toNat) ∧
    skipsIf (.sneReg x y) s ((s.v x).toNat ≠ (s.v y).toNat)

/-- Ex9E skips if the key of V[x]'s low nibble is held, ExA1 if it is not (R105, R106; the low nibble is D14, the polarity
G8: log 13, 21). -/
def Obligations.KeySkipsTestTheLowNibble : Prop :=
  ∀ (x : Reg) (k : Fin 16) (s : State), k.val = (s.v x).toNat % 16 →
    skipsIf (.skp x) s (s.keys[k] = true) ∧ skipsIf (.sknp x) s (s.keys[k] = false)

/-! ## Jumps, calls and returns -/

/-- 1nnn: the encoding; PC becomes nnn and nothing else changes, the stack included, nnn odd or even; nnn equal to its own
address is an endless loop; nnn = 0xFFF is accepted and the next fetch raises AddressOutOfBounds(4096) (R110). -/
def Obligations.JpSetsPc : Prop :=
  (∀ op : Word, op.toNat / 4096 = 1 → ∃ nnn : Addr, nnn.toNat = op.toNat % 4096 ∧ decode op = .jp nnn) ∧
  (∀ (nnn : Addr) (s : State), jumpsTo (.jp nnn) s nnn.toNat) ∧
  (∀ (nnn : Addr) (s : State), s.fetching → s.pc.toNat = nnn.toNat → nnn.toNat < 4095 →
    s.mem.get nnn.toNat ++ s.mem.get (nnn.toNat + 1) = encode (.jp nnn) → step s = .next s) ∧
  (∀ s : State, s.fetching → ∃ t u r, exec (.jp 0xFFF) s = .next t ∧ step t = .next u ∧ u.fault = some r ∧
    r.error = .addressOutOfBounds 4096)

/-- Bnnn: PC becomes nnn + V0, not reduced (R112; the addend is D9, G11: log 18). -/
def Obligations.JpV0AddsV0Unreduced : Prop :=
  ∀ (nnn : Addr) (s : State), jumpsTo (.jpV0 nnn) s (nnn.toNat + (s.v 0).toNat)

/-- 2nnn with fewer than 16 entries in use: PC, the address after the call, is stored at stack[SP], SP is incremented, and PC
becomes nnn; every other entry and everything else is unchanged (R111; the layout is D25, log 27). -/
def Obligations.CallPushesReturnAddress : Prop :=
  ∀ (nnn : Addr) (s : State), s.sp.val < 16 → ∃ t, exec (.call nnn) s = .next t ∧
    t.pc.toNat = nnn.toNat ∧ t.sp.val = s.sp.val + 1 ∧
    (∀ j : Fin 16, t.stack[j] = if j.val = s.sp.val then s.pc else s.stack[j]) ∧
    t = { s with pc := t.pc, sp := t.sp, stack := t.stack } ∧ sameBytes s t

/-- 2nnn with 16 entries in use raises StackOverflow and writes nothing else (R111, R176; D12, D20: log 8, 9). -/
def Obligations.CallOnFullStackRaises : Prop :=
  ∀ (nnn : Addr) (s : State), s.sp.val = 16 → raises (.call nnn) s .stackOverflow

/-- 00EE: the word 0x00EE and no other decodes to RET; with an entry in use SP is decremented and PC becomes the entry, the
entry and everything else unchanged; with none it raises StackUnderflow and writes nothing else (R113; the layout is D25, the
record D20, no partial effect D12: log 8, 9, 27). -/
def Obligations.RetPopsOrUnderflows : Prop :=
  (∀ op : Word, decode op = .ret ↔ op = 0x00EE) ∧
  (∀ (s : State) (j : Fin 16), s.sp.val = j.val + 1 → ∃ t, exec .ret s = .next t ∧
    t.pc = s.stack[j] ∧ t.sp.val = j.val ∧ t = { s with pc := t.pc, sp := t.sp } ∧ sameBytes s t) ∧
  (∀ s : State, s.sp.val = 0 → raises .ret s .stackUnderflow)

/-- A return executed when the stack is as a call left it comes back to the address after the call, at the call's depth,
whatever else has happened in between (R111, R113; the layout is D25, log 27). -/
def Obligations.RetReturnsToAfterTheCall : Prop :=
  ∀ (nnn : Addr) (s t t' : State), s.sp.val < 16 → exec (.call nnn) s = .next t → t'.sp = t.sp → t'.stack = t.stack →
    ∃ u, exec .ret t' = .next u ∧ u.pc = s.pc ∧ u.sp = s.sp ∧ u = { t' with pc := u.pc, sp := u.sp } ∧ sameBytes t' u

/-! ## Display -/

/-- 00E0: the word 0x00E0 and no other decodes to CLS; every pixel becomes 0 and nothing else changes, VF included (R121). -/
def Obligations.ClsClearsEveryPixel : Prop :=
  (∀ op : Word, decode op = .cls ↔ op = 0x00E0) ∧
  (∀ s : State, ∃ t, exec .cls s = .next t ∧ (∀ r c, t.fb.pixel r c = false) ∧ (∀ r : Reg, t.v r = s.v r) ∧
    t = { s with fb := t.fb } ∧ sameBytes s t)

/-- Dxyn with its n bytes in memory (any I with n = 0): bit 7 - col of byte `row` is composed by exclusive or into the pixel
at row (Vy + row) mod 32 and column (Vx + col) mod 64; every other pixel is unchanged; VF is 1 exactly if some 1 bit fell on
a pixel that was 1, else 0; nothing else changes (R122, R123; bit 7 leftmost is D13, G12, the coordinates read before VF D7: log 16, 20). -/
def Obligations.DrwComposesSpriteByXor : Prop :=
  ∀ (x y n : Reg) (s : State), n.val = 0 ∨ s.index.toNat + n.val ≤ 4096 →
    ∃ t, exec (.drw x y n) s = .next t ∧
      (∀ row col : Nat, row < n.val → col < 8 → ∀ (r : Fin 32) (c : Fin 64),
        r.val = ((s.v y).toNat + row) % 32 → c.val = ((s.v x).toNat + col) % 64 →
        t.fb.pixel r c = (s.fb.pixel r c ^^ (s.mem.get (s.index.toNat + row)).getLsbD (7 - col))) ∧
      (∀ (r : Fin 32) (c : Fin 64),
        (∀ row col : Nat, row < n.val → col < 8 →
          ¬(r.val = ((s.v y).toNat + row) % 32 ∧ c.val = ((s.v x).toNat + col) % 64)) →
        t.fb.pixel r c = s.fb.pixel r c) ∧
      (t.v vF).toNat ≤ 1 ∧
      ((t.v vF).toNat = 1 ↔ ∃ row col : Nat, row < n.val ∧ col < 8 ∧
        (s.mem.get (s.index.toNat + row)).getLsbD (7 - col) = true ∧
        ∃ (r : Fin 32) (c : Fin 64), r.val = ((s.v y).toNat + row) % 32 ∧ c.val = ((s.v x).toNat + col) % 64 ∧
          s.fb.pixel r c = true) ∧
      sameRegsExcept [vF] s t ∧ t = { s with fb := t.fb, regs := t.regs } ∧ sameBytes s t

/-- Dxyn whose bytes reach past the end of memory raises AddressOutOfBounds with the lowest out-of-range address and changes
no pixel and no register (R122, R176; D11, D12, D20: log 8, 9, 10). -/
def Obligations.DrwOutOfBoundsDrawsNothing : Prop :=
  ∀ (x y n : Reg) (s : State), 0 < n.val → 4096 < s.index.toNat + n.val →
    raises (.drw x y n) s (.addressOutOfBounds (max s.index.toNat 4096))

/-- Drawing the same sprite twice at the same place, neither coordinate register being VF, restores the framebuffer, and the
second draw reports a collision exactly if some 1 bit fell, in the first draw, on a pixel that was off (R124, C11;
bit 7 leftmost is D13, G12, log 20). -/
def Obligations.DrawingTwiceRestoresFramebuffer : Prop :=
  ∀ (x y n : Reg) (s t u : State), x ≠ vF → y ≠ vF → n.val = 0 ∨ s.index.toNat + n.val ≤ 4096 →
    exec (.drw x y n) s = .next t → exec (.drw x y n) t = .next u →
    u.fb = s.fb ∧
    ((u.v vF).toNat = 1 ↔ ∃ row col : Nat, row < n.val ∧ col < 8 ∧
      (s.mem.get (s.index.toNat + row)).getLsbD (7 - col) = true ∧
      ∃ (r : Fin 32) (c : Fin 64), r.val = ((s.v y).toNat + row) % 32 ∧ c.val = ((s.v x).toNat + col) % 64 ∧
        s.fb.pixel r c = false)

/-! ## Timers and key wait -/

/-- Fx07 copies DT to V[x], Fx15 copies V[x] to DT, Fx18 copies V[x] to ST; nothing else changes (R130 to R132; which
sub-opcode is which is G9, log 13). -/
def Obligations.TimerInstructionsCopy : Prop :=
  ∀ (x : Reg) (s : State),
    writesReg (.ldVxDt x) s x s.dt.toNat ∧
    (∃ t, exec (.ldDtVx x) s = .next t ∧ t.dt = s.v x ∧ t = { s with dt := t.dt } ∧ sameBytes s t) ∧
    (∃ t, exec (.ldStVx x) s = .next t ∧ t.st = s.v x ∧ t = { s with st := t.st } ∧ sameBytes s t)

/-- Fx0A only enters the wait: V[x], PC and everything else are unchanged, whatever keys are held (R133; not polling in its
own cycle is D16, log 23). -/
def Obligations.LdVxKeyEntersTheWait : Prop :=
  ∀ (x : Reg) (s : State), ∃ t, exec (.ldVxKey x) s = .next t ∧ t.cpuState = .waitingForKey x ∧
    t = { s with cpuState := t.cpuState } ∧ sameBytes s t

/-! ## Index register and memory -/

/-- Annn loads nnn into I; Fx1E adds V[x] modulo 65536 with no flag and no check; Fx29 makes I the address of the glyph of
V[x]'s low nibble, 0x050 + 5 * d (R140 to R142; G3, G5, D10, D17: log 5, 13, 19). -/
def Obligations.IndexInstructionsSetI : Prop :=
  ∀ (x : Reg) (nnn : Addr) (s : State),
    setsIndex (.ldI nnn) s nnn.toNat ∧
    setsIndex (.addI x) s ((s.index.toNat + (s.v x).toNat) % 65536) ∧
    setsIndex (.ldFont x) s (0x050 + 5 * ((s.v x).toNat % 16))

/-- Fx33 with I + 2 in memory stores the three decimal digits of V[x] at I, I + 1, I + 2, hundreds first; every other byte
and everything else, I included, is unchanged (R143; I unchanged is D8, log 17). -/
def Obligations.LdBcdStoresDigits : Prop :=
  ∀ (x : Reg) (s : State), s.index.toNat + 2 < 4096 → ∃ t, exec (.ldBcd x) s = .next t ∧
    (t.mem.get s.index.toNat).toNat = (s.v x).toNat / 100 ∧
    (t.mem.get (s.index.toNat + 1)).toNat = (s.v x).toNat / 10 % 10 ∧
    (t.mem.get (s.index.toNat + 2)).toNat = (s.v x).toNat % 10 ∧
    sameBytesOutside s.index.toNat 3 s t ∧ t = { s with mem := t.mem }

/-- Fx55 with I + x in memory stores V0..Vx inclusive at I .. I + x; every other byte and everything else, I included, is
unchanged (R144; I unchanged is D8, the direction G10: log 13, 17). -/
def Obligations.StRegsStoresV0ToVx : Prop :=
  ∀ (x : Reg) (s : State), s.index.toNat + x.val < 4096 → ∃ t, exec (.stRegs x) s = .next t ∧
    (∀ i : Reg, i ≤ x → t.mem.get (s.index.toNat + i.val) = s.v i) ∧
    sameBytesOutside s.index.toNat (x.val + 1) s t ∧ t = { s with mem := t.mem }

/-- Fx65 with I + x in memory loads V0..Vx inclusive from I .. I + x; the registers above Vx, memory, I and everything else
are unchanged (R145; I unchanged is D8, the direction G10: log 13, 17). -/
def Obligations.LdRegsLoadsV0ToVx : Prop :=
  ∀ (x : Reg) (s : State), s.index.toNat + x.val < 4096 → ∃ t, exec (.ldRegs x) s = .next t ∧
    (∀ i : Reg, t.v i = if i ≤ x then s.mem.get (s.index.toNat + i.val) else s.v i) ∧ onlyRegs s t

/-- Fx33, Fx55 and Fx65 with an address past the end of memory raise AddressOutOfBounds with the lowest out-of-range address
and write no byte and no register (R143 to R145, R172, R176; D11, D12, D20: log 8, 9, 10). -/
def Obligations.MemoryInstructionsOutOfBoundsWriteNothing : Prop :=
  ∀ (x : Reg) (s : State),
    (4096 ≤ s.index.toNat + 2 → raises (.ldBcd x) s (.addressOutOfBounds (max s.index.toNat 4096))) ∧
    (4096 ≤ s.index.toNat + x.val →
      raises (.stRegs x) s (.addressOutOfBounds (max s.index.toNat 4096)) ∧
      raises (.ldRegs x) s (.addressOutOfBounds (max s.index.toNat 4096)))

/-- A bulk load from where a bulk store put the registers gives their values back, whatever the registers, the timers, the
framebuffer or the stack have become in between (R144, R145; I unchanged is D8, the directions G10: log 13, 17). -/
def Obligations.LdRegsUndoesStRegs : Prop :=
  ∀ (x : Reg) (s t t' : State), s.index.toNat + x.val < 4096 → exec (.stRegs x) s = .next t →
    t'.mem = t.mem → t'.index = s.index →
    ∃ u, exec (.ldRegs x) t' = .next u ∧ ∀ i : Reg, u.v i = if i ≤ x then s.v i else t'.v i

/-- A store is seen by the very next fetch: a sound running machine that executes Fx55 over the two bytes at its own next PC
then executes the instruction those stored registers decode to (R43, which the spec derives; the direction is G10, log 13). -/
def Obligations.StoredBytesAreFetchedNext : Prop :=
  ∀ (x i j : Reg) (s : State), s.fetching → s.index.toNat + x.val < 4096 → i.val + 1 = j.val → j ≤ x →
    s.pc.toNat = s.index.toNat + i.val →
    ∃ t, exec (.stRegs x) s = .next t ∧ step t = exec (decode (s.v i ++ s.v j)) { t with pc := s.pc + 2 }

/-! ## Unknown words -/

/-- Executing `Unknown(op)` under the policy Fatal raises UnknownOpcode(op) and changes nothing else; under Nop it changes
nothing, PC having been advanced by the fetch (R150, R151; the policy is the parameter of D1, SYS as Unknown D2, the record
D20: log 6, 8, 12). -/
def Obligations.UnknownWordFollowsPolicy : Prop :=
  ∀ (op : Word) (s : State),
    (s.policy = .fatal → raises (.unknown op) s (.unknownOpcode op)) ∧
    (s.policy = .nop → exec (.unknown op) s = .next s)

/-! ## Reset and the host operations -/

/-- What reset leaves that the source states: PC = 0x200, Running, every pixel 0, every key up (R28); and the values the spec
chose (D18, D21, log 3, 4, 5): registers, I, SP, stack entries and timers 0, no fault, zero memory but for the font. -/
def Obligations.ResetState : Prop :=
  State.reset.pc = 0x200 ∧ State.reset.cpuState = .running ∧ (∀ r c, State.reset.fb.pixel r c = false) ∧
  (∀ k : Fin 16, State.reset.keys[k] = false) ∧ (∀ r : Reg, State.reset.v r = 0) ∧ State.reset.index = 0 ∧
  State.reset.sp = 0 ∧ (∀ j : Fin 16, State.reset.stack[j] = 0) ∧ State.reset.dt = 0 ∧ State.reset.st = 0 ∧
  State.reset.fault = none ∧ State.reset.policy = .fatal ∧
  (∀ a : Nat, a < 0x050 ∨ 0x0A0 ≤ a → State.reset.mem.get a = 0) ∧
  (∀ k : Nat, k < 80 → State.reset.mem.get (0x050 + k) = fontTable.getD k 0)

/-- load of at most 3584 bytes gives the reset state with the ROM at 0x200, whatever the machine was before, and answers ok;
a longer ROM changes nothing and answers RomTooLarge; a load of the empty ROM is the reset state (R190 to R192, R38, R40;
D18, D21, D23: log 3, 4, 24; the kept policy and counter: log 6, 11). -/
def Obligations.LoadResetsOrRefuses : Prop :=
  (∀ (rom : List Byte) (s : State), rom.length ≤ 3584 → ∃ t, loadRom rom s = (t, .ok) ∧
    (∀ a : Nat, t.mem.get a =
      if 0x200 ≤ a ∧ a < 0x200 + rom.length then rom.getD (a - 0x200) 0 else State.reset.mem.get a) ∧
    t.mem.wf ∧ t = { State.reset with mem := t.mem, policy := s.policy, draws := s.draws }) ∧
  (∀ (rom : List Byte) (s : State), 3584 < rom.length → loadRom rom s = (s, .romTooLarge)) ∧
  loadRom [] State.reset = (State.reset, .ok)

/-- key_event with an index 0..15 sets that key's level and nothing else, and answers ok; with a larger index it changes
nothing and answers InvalidKeyIndex (R160; the second clause is D22, log 25). -/
def Obligations.KeyEventSetsLevel : Prop :=
  (∀ (k : Fin 16) (down : Bool) (s : State), ∃ t, keyEvent k.val down s = (t, .ok) ∧
    (∀ j : Fin 16, t.keys[j] = if j = k then down else s.keys[j]) ∧ t = { s with keys := t.keys } ∧ sameBytes s t) ∧
  (∀ (k : Nat) (down : Bool) (s : State), 15 < k → keyEvent k down s = (s, .invalidKeyIndex))

/-- The timer tick lowers each nonzero timer by one, leaves a zero timer at zero and changes nothing else; it happens exactly
once in a frame that ends without a fault, after all its cycles, and nowhere else: a step changes a timer only by executing
Fx15 or Fx18, and a key event and a snapshot change none (R158). A frame that returns a fault leaves the state its cycles
left, with no tick (D21, log 26). -/
def Obligations.TimerTickOncePerFrame : Prop :=
  (∀ s : State, (timerTick s).dt.toNat = s.dt.toNat - 1 ∧ (timerTick s).st.toNat = s.st.toNat - 1 ∧
    timerTick s = { s with dt := (timerTick s).dt, st := (timerTick s).st }) ∧
  (∀ (hz : Nat) (s t : State), s.fault = none → Host.Core.run core (cyclesPerFrame hz) s = .next t → t.fault = none →
    runFrame hz s = .next (timerTick t, .ok)) ∧
  (∀ s t : State, step s = .next t →
    (t.dt ≠ s.dt → ∃ x, decode (s.mem.get s.pc.toNat ++ s.mem.get (s.pc.toNat + 1)) = .ldDtVx x) ∧
    (t.st ≠ s.st → ∃ x, decode (s.mem.get s.pc.toNat ++ s.mem.get (s.pc.toNat + 1)) = .ldStVx x)) ∧
  (∀ (k : Nat) (down : Bool) (s t : State) (reply : HostReply), hostMove (.keyEvent k down) s = .next (t, reply) →
    t.dt = s.dt ∧ t.st = s.st) ∧
  (∀ (s t : State) (reply : HostReply), hostMove .snapshot s = .next (t, reply) → t.dt = s.dt ∧ t.st = s.st) ∧
  (∀ (hz : Nat) (s t : State) (r : FaultRecord), runFrame hz s = .next (t, .fault r) →
    ∃ k, k ≤ cyclesPerFrame hz ∧ Host.Core.run core k s = .next t)

/-- The cycles of a frame are max(1, clock_hz / 60): 1 below 120, and 8 at the default 500 (R156; clock_hz of any size is D24,
log 26). -/
def Obligations.CyclesPerFrameFormula : Prop :=
  (∀ hz : Nat, hz < 120 → cyclesPerFrame hz = 1) ∧ (∀ hz : Nat, 60 ≤ hz → cyclesPerFrame hz = hz / 60) ∧
  cyclesPerFrame Config.clockHzDefault = 8

/-- A frame on a stopped machine runs nothing, ticks nothing and returns the recorded fault; a frame in which the k-th cycle
raises first stops there: the state is that cycle's, no tick, and the fault is returned (R157, R177; D21, log 26). -/
def Obligations.FaultEndsTheFrameWithoutTick : Prop :=
  (∀ (hz : Nat) (s : State) (r : FaultRecord), s.fault = some r → runFrame hz s = .next (s, .fault r)) ∧
  (∀ (hz k : Nat) (s t : State) (r : FaultRecord), s.fault = none → k < max 1 (hz / 60) →
    Host.Core.run core (k + 1) s = .next t → t.fault = some r → runFrame hz s = .next (t, .fault r))

/-- A snapshot returns the 2048 pixels as they are and changes nothing, on a faulted machine too (R159). -/
def Obligations.SnapshotReturnsTheGrid : Prop :=
  ∀ s : State, ∃ reply g, hostMove .snapshot s = .next (s, reply) ∧ reply.status = .ok ∧ reply.grid = some g ∧
    ∀ (r : Fin 32) (c : Fin 64), g.pixel r c = s.fb.pixel r c

/-- Every host move is answered in every state, a faulted one included; and from every state, however faulted or waiting, a
load of at most 3584 bytes gives a machine that can fetch (R155, R177; the latch is D21, log 7). -/
def Obligations.HostMovesAlwaysAnswer : Prop :=
  (∀ (m : HostMove) (s : State), ∃ t reply, hostMove m s = .next (t, reply)) ∧
  (∀ (rom : List Byte) (s : State), rom.length ≤ 3584 →
    ∃ t, hostMove (.load rom) s = .next (t, { status := .ok, grid := none }) ∧ t.fetching)

/-- While the CPU waits and no key is held a frame of any length changes nothing but the timers, which tick (R135, R158,
R181). -/
def Obligations.WaitingFrameOnlyTicks : Prop :=
  ∀ (hz : Nat) (s : State) (d : Reg), s.fault = none → s.cpuState = .waitingForKey d →
    (∀ k : Fin 16, s.keys[k] = false) → runFrame hz s = .next (timerTick s, .ok)

/-- A finished program stays finished: at a jump to itself every step changes nothing, and every frame only ticks the timers
and leaves the program finished (R110, R199; the convention is D28, log 30). -/
def Obligations.EndedProgramStaysEnded : Prop :=
  ∀ (s : State), s.ended → step s = .next s ∧
    ∀ hz : Nat, runFrame hz s = .next (timerTick s, .ok) ∧ (timerTick s).ended

/-! ## Invariants -/

/-- The reset state meets the invariant. -/
def Obligations.ResetMeetsInvariant : Prop := State.reset.inv

/-- Every step keeps the invariant: memory in canonical form, PC at most 0x10FE, every stacked address at most 0x1000 (R16,
which the spec derives; the canonical form is the model's: log 4, 18, 28). -/
def Obligations.StepKeepsInvariant : Prop := ∀ s t : State, s.inv → step s = .next t → t.inv

/-- Every state the host can reach by its moves meets the invariant, so that PC stays below 0x10FF and advancing it by 2
never wraps at 65536 (R16, R161; log 18, 28, 29). -/
def Obligations.ReachableStatesMeetInvariant : Prop :=
  ∀ s : State, Reachable s → s.inv ∧ s.pc.toNat < 0x10FF ∧ (s.pc + 2).toNat = s.pc.toNat + 2
end

