-- ==== Sys2Proof/Laws/Decode.lean ====
section
/-! SUPPORT. Words and their fields as numbers, the fields of a packed word, and a word from its fields (R51, R52). -/

namespace Sys2Proof

/-- Concatenation as a number. -/
theorem toNat_append_eq {m n : Nat} (a : BitVec m) (b : BitVec n) :
    (a ++ b).toNat = a.toNat * 2 ^ n + b.toNat := by
  rw [BitVec.toNat_append, ← Nat.shiftLeft_add_eq_or_of_lt b.isLt, Nat.shiftLeft_eq]

/-! ## The fields as numbers -/

theorem fieldG_toNat (op : Word) : (fieldG op).toNat = op.toNat / 4096 % 16 := by
  simp [fieldG, Nat.shiftRight_eq_div_pow]

theorem fieldX_val (op : Word) : (fieldX op).val = op.toNat / 256 % 16 := by
  show (op.extractLsb' 8 4).toNat = _
  simp [Nat.shiftRight_eq_div_pow]

theorem fieldY_val (op : Word) : (fieldY op).val = op.toNat / 16 % 16 := by
  show (op.extractLsb' 4 4).toNat = _
  simp [Nat.shiftRight_eq_div_pow]

theorem fieldN_val (op : Word) : (fieldN op).val = op.toNat % 16 := by
  show (op.extractLsb' 0 4).toNat = _
  simp

theorem fieldKK_toNat (op : Word) : (fieldKK op).toNat = op.toNat % 256 := by simp [fieldKK]

theorem fieldNNN_toNat (op : Word) : (fieldNNN op).toNat = op.toNat % 4096 := by simp [fieldNNN]

/-! ## The packed words as numbers -/

theorem packNNN_toNat (g : Nibble) (nnn : Addr) : (packNNN g nnn).toNat = g.toNat * 4096 + nnn.toNat :=
  toNat_append_eq g nnn

theorem packXKK_toNat (g : Nibble) (x : Reg) (kk : Byte) :
    (packXKK g x kk).toNat = g.toNat * 4096 + x.val * 256 + kk.toNat := by
  have h := toNat_append_eq (g ++ (BitVec.ofFin x : Nibble)) kk
  have hx : (BitVec.ofFin x : Nibble).toNat = x.val := rfl
  refine h.trans ?_
  rw [toNat_append_eq, hx]
  omega

theorem packXYN_toNat (g : Nibble) (x y n : Reg) :
    (packXYN g x y n).toNat = g.toNat * 4096 + x.val * 256 + y.val * 16 + n.val := by
  have h := toNat_append_eq (g ++ (BitVec.ofFin x : Nibble) ++ (BitVec.ofFin y : Nibble)) (BitVec.ofFin n : Nibble)
  have hx : (BitVec.ofFin x : Nibble).toNat = x.val := rfl
  have hy : (BitVec.ofFin y : Nibble).toNat = y.val := rfl
  have hn : (BitVec.ofFin n : Nibble).toNat = n.val := rfl
  refine h.trans ?_
  rw [toNat_append_eq, toNat_append_eq, hx, hy, hn]
  omega

/-! ## Fields of a packed word -/

@[simp] theorem fieldG_packNNN (g : Nibble) (nnn : Addr) : fieldG (packNNN g nnn) = g := by
  apply BitVec.eq_of_toNat_eq; rw [fieldG_toNat, packNNN_toNat]; omega

@[simp] theorem fieldNNN_packNNN (g : Nibble) (nnn : Addr) : fieldNNN (packNNN g nnn) = nnn := by
  apply BitVec.eq_of_toNat_eq; rw [fieldNNN_toNat, packNNN_toNat]; omega

@[simp] theorem fieldG_packXKK (g : Nibble) (x : Reg) (kk : Byte) : fieldG (packXKK g x kk) = g := by
  apply BitVec.eq_of_toNat_eq; rw [fieldG_toNat, packXKK_toNat]; omega

@[simp] theorem fieldX_packXKK (g : Nibble) (x : Reg) (kk : Byte) : fieldX (packXKK g x kk) = x := by
  apply Fin.ext; rw [fieldX_val, packXKK_toNat]; omega

@[simp] theorem fieldKK_packXKK (g : Nibble) (x : Reg) (kk : Byte) : fieldKK (packXKK g x kk) = kk := by
  apply BitVec.eq_of_toNat_eq; rw [fieldKK_toNat, packXKK_toNat]; omega

@[simp] theorem fieldG_packXYN (g : Nibble) (x y n : Reg) : fieldG (packXYN g x y n) = g := by
  apply BitVec.eq_of_toNat_eq; rw [fieldG_toNat, packXYN_toNat]; omega

@[simp] theorem fieldX_packXYN (g : Nibble) (x y n : Reg) : fieldX (packXYN g x y n) = x := by
  apply Fin.ext; rw [fieldX_val, packXYN_toNat]; omega

@[simp] theorem fieldY_packXYN (g : Nibble) (x y n : Reg) : fieldY (packXYN g x y n) = y := by
  apply Fin.ext; rw [fieldY_val, packXYN_toNat]; omega

@[simp] theorem fieldN_packXYN (g : Nibble) (x y n : Reg) : fieldN (packXYN g x y n) = n := by
  apply Fin.ext; rw [fieldN_val, packXYN_toNat]; omega

/-! ## A word from its fields -/

theorem packNNN_fields (op : Word) : packNNN (fieldG op) (fieldNNN op) = op := by
  apply BitVec.eq_of_toNat_eq; rw [packNNN_toNat, fieldG_toNat, fieldNNN_toNat]; omega

theorem packXKK_fields (op : Word) : packXKK (fieldG op) (fieldX op) (fieldKK op) = op := by
  apply BitVec.eq_of_toNat_eq; rw [packXKK_toNat, fieldG_toNat, fieldX_val, fieldKK_toNat]; omega

theorem packXYN_fields (op : Word) : packXYN (fieldG op) (fieldX op) (fieldY op) (fieldN op) = op := by
  apply BitVec.eq_of_toNat_eq; rw [packXYN_toNat, fieldG_toNat, fieldX_val, fieldY_val, fieldN_val]; omega

/-! ## Bytes of a word -/

/-- A word's two bytes put together again, high byte first (R34). -/
theorem wordBytes_append (op : Word) : (op.extractLsb' 8 8 ++ op.extractLsb' 0 8 : Word) = op := by
  apply BitVec.eq_of_toNat_eq
  have h := toNat_append_eq (op.extractLsb' 8 8) (op.extractLsb' 0 8)
  refine Eq.trans h ?_
  simp only [BitVec.extractLsb'_toNat, Nat.shiftRight_eq_div_pow]
  have := op.isLt
  omega

/-- The decoder reads a word's bytes as the word, and leaves the bytes after it. -/
theorem decodeBytes_wordBytes (op : Word) (rest : List Byte) :
    decodeBytes (wordBytes op ++ rest) = .ok (decode op, rest) := by
  simp only [wordBytes, List.cons_append, List.nil_append, decodeBytes, wordBytes_append]

theorem tableWord_toNat (op : Word) : tableWord 16 op.toNat = op := by
  simp [tableWord, Nat.mod_eq_of_lt op.isLt]

/-! ## The masks of the opcode map as fields (R56) -/

theorem packXYN_and (g g' : Nibble) (x y n x' y' n' : Reg) :
    packXYN g x y n &&& packXYN g' x' y' n' =
      packXYN (g &&& g') ((BitVec.ofFin x : Nibble) &&& BitVec.ofFin x').toFin
        ((BitVec.ofFin y : Nibble) &&& BitVec.ofFin y').toFin ((BitVec.ofFin n : Nibble) &&& BitVec.ofFin n').toFin := by
  simp only [packXYN]
  show (_ ++ _ ++ _ ++ _ : BitVec (4 + 4 + 4 + 4)) &&& (_ ++ _ ++ _ ++ _ : BitVec (4 + 4 + 4 + 4)) = _
  simp only [BitVec.and_append]

theorem nibble_and_zero (x : Reg) : ((BitVec.ofFin x : Nibble) &&& BitVec.ofFin 0).toFin = 0 := by
  revert x; decide

theorem nibble_and_ones (x : Reg) : ((BitVec.ofFin x : Nibble) &&& BitVec.ofFin 15).toFin = x := by
  revert x; decide

theorem group_and_ones (g : Nibble) : g &&& 15 = g := by revert g; decide

theorem mask_F000 (op : Word) : op &&& 0xF000 = packXYN (fieldG op) 0 0 0 := by
  conv => lhs; rw [← packXYN_fields op]
  rw [show (0xF000 : Word) = packXYN 15 0 0 0 from rfl]
  simp only [packXYN_and, nibble_and_zero, group_and_ones]

theorem mask_F00F (op : Word) : op &&& 0xF00F = packXYN (fieldG op) 0 0 (fieldN op) := by
  conv => lhs; rw [← packXYN_fields op]
  rw [show (0xF00F : Word) = packXYN 15 0 0 15 from rfl]
  simp only [packXYN_and, nibble_and_zero, nibble_and_ones, group_and_ones]

theorem mask_F0FF (op : Word) : op &&& 0xF0FF = packXYN (fieldG op) 0 (fieldY op) (fieldN op) := by
  conv => lhs; rw [← packXYN_fields op]
  rw [show (0xF0FF : Word) = packXYN 15 0 15 15 from rfl]
  simp only [packXYN_and, nibble_and_zero, nibble_and_ones, group_and_ones]

theorem mask_FFFF (op : Word) : op &&& 0xFFFF = op := by
  conv => lhs; rw [← packXYN_fields op]
  rw [show (0xFFFF : Word) = packXYN 15 15 15 15 from rfl]
  rw [packXYN_and, nibble_and_ones, nibble_and_ones, nibble_and_ones, group_and_ones, packXYN_fields]

/-! A word selects a row of each mask exactly when the row's fields are the word's. -/

theorem selects_F000 (op : Word) (g : Nibble) :
    (OpcodeRow.mk 0xF000 (packXYN g 0 0 0)).selects op = true ↔ fieldG op = g := by
  simp only [OpcodeRow.selects, beq_iff_eq, mask_F000]
  exact ⟨fun h => by simpa only [fieldG_packXYN] using congrArg fieldG h, fun h => by rw [h]⟩

theorem selects_F00F (op : Word) (g : Nibble) (n : Reg) :
    (OpcodeRow.mk 0xF00F (packXYN g 0 0 n)).selects op = true ↔ fieldG op = g ∧ fieldN op = n := by
  simp only [OpcodeRow.selects, beq_iff_eq, mask_F00F]
  exact ⟨fun h => ⟨by simpa only [fieldG_packXYN] using congrArg fieldG h,
    by simpa only [fieldN_packXYN] using congrArg fieldN h⟩, fun h => by rw [h.1, h.2]⟩

theorem fieldKK_eq_iff (op : Word) (kk : Byte) :
    fieldKK op = kk ↔ (fieldY op).val = kk.toNat / 16 ∧ (fieldN op).val = kk.toNat % 16 := by
  rw [← BitVec.toNat_inj, fieldKK_toNat, fieldY_val, fieldN_val]; omega

theorem selects_F0FF (op : Word) (g : Nibble) (y n : Reg) :
    (OpcodeRow.mk 0xF0FF (packXYN g 0 y n)).selects op = true ↔
      fieldG op = g ∧ fieldKK op = BitVec.ofNat 8 (y.val * 16 + n.val) := by
  have hk : (BitVec.ofNat 8 (y.val * 16 + n.val)).toNat = y.val * 16 + n.val := by
    simp only [BitVec.toNat_ofNat]; omega
  rw [fieldKK_eq_iff, hk]
  simp only [OpcodeRow.selects, beq_iff_eq, mask_F0FF]
  constructor
  · intro h
    have hy : fieldY op = y := by simpa only [fieldY_packXYN] using congrArg fieldY h
    have hn : fieldN op = n := by simpa only [fieldN_packXYN] using congrArg fieldN h
    exact ⟨by simpa only [fieldG_packXYN] using congrArg fieldG h, by rw [hy]; omega, by rw [hn]; omega⟩
  · rintro ⟨hg, hy, hn⟩
    have hy' : fieldY op = y := Fin.ext (by omega)
    have hn' : fieldN op = n := Fin.ext (by omega)
    rw [hg, hy', hn']

theorem selects_FFFF (op w : Word) : (OpcodeRow.mk 0xFFFF w).selects op = true ↔ op = w := by
  simp only [OpcodeRow.selects, beq_iff_eq, mask_FFFF]

end Sys2Proof
end

