-- ==== Sys2Proof/Laws/Framebuffer.lean ====
section
/-! SUPPORT. The framebuffer: one lemma for each operation on what each pixel reads afterwards (R123). -/

namespace Sys2Proof.Machine

@[simp] theorem pixel_clearFb (r : Fin 32) (c : Fin 64) : clearFb.pixel r c = false := by
  simp [clearFb, Framebuffer.pixel]

/-- Toggling a pixel changes that pixel alone. -/
@[simp] theorem pixel_toggle (fb : Framebuffer) (r r' : Fin 32) (c c' : Fin 64) :
    (fb.toggle r c).pixel r' c' = if r' = r ∧ c' = c then !fb.pixel r' c' else fb.pixel r' c' := by
  simp only [Framebuffer.toggle, Framebuffer.pixel, Fin.getElem_fin, Vector.getElem_set]
  by_cases hr : r' = r
  · subst hr
    simp only [if_true, true_and, Vector.getElem_set]
    by_cases hc : c' = c
    · subst hc; simp
    · simp [hc, Fin.val_inj, Ne.symm hc]
  · simp [hr, Fin.val_inj, Ne.symm hr]

/-- Plotting a bit composes it into its pixel by exclusive or. -/
theorem pixel_plot (bit : Bool) (r r' : Fin 32) (c c' : Fin 64) (d : Framebuffer × Bool) :
    (plot bit r c d).1.pixel r' c' = (d.1.pixel r' c' ^^ (bit && decide (r' = r ∧ c' = c))) := by
  cases bit
  · simp [plot]
  · simp only [plot, if_true, pixel_toggle, Bool.true_and]
    by_cases h : r' = r ∧ c' = c <;> simp [h]

/-- Plotting a bit collides if the bit is 1 and its pixel was 1. -/
theorem collided_plot (bit : Bool) (r : Fin 32) (c : Fin 64) (d : Framebuffer × Bool) :
    (plot bit r c d).2 = (d.2 || (bit && d.1.pixel r c)) := by
  cases bit <;> simp [plot]

/-- Two framebuffers with the same pixels are equal. -/
theorem framebuffer_ext {f g : Framebuffer} (h : ∀ r c, f.pixel r c = g.pixel r c) : f = g := by
  apply Vector.ext
  intro i hi
  apply Vector.ext
  intro j hj
  exact h ⟨i, hi⟩ ⟨j, hj⟩

@[simp] theorem wrapRow_val (y : Nat) : (wrapRow y).val = y % 32 := rfl

@[simp] theorem wrapCol_val (x : Nat) : (wrapCol x).val = x % 64 := rfl

/-! ## The blit (R123, R124) -/

/-- The column of a sprite at origin `x0` that falls on the grid's column `c`, if it is that wide. -/
def spriteCol (x0 : Nat) (c : Fin 64) : Nat := (c.val + 64 - x0 % 64) % 64

/-- The row of a sprite at origin `y0` that falls on the grid's row `r`, if it is that tall. -/
def spriteRow (y0 : Nat) (r : Fin 32) : Nat := (r.val + 32 - y0 % 32) % 32

theorem eq_wrapCol_iff (x0 k : Nat) (c : Fin 64) (hk : k < 64) : c = wrapCol (x0 + k) ↔ spriteCol x0 c = k := by
  rw [Fin.ext_iff, wrapCol_val, spriteCol]; omega

theorem eq_wrapRow_iff (y0 k : Nat) (r : Fin 32) (hk : k < 32) : r = wrapRow (y0 + k) ↔ spriteRow y0 r = k := by
  rw [Fin.ext_iff, wrapRow_val, spriteRow]; omega

/-- The first `k` columns of a sprite row: each 1 bit toggles its pixel, no pixel is met twice. -/
theorem drawCols_cases (x0 y k : Nat) (b : Byte) (d : Framebuffer × Bool) (hk : k ≤ 64) :
    let D := (List.range k).foldl (fun d col => plot (spriteBit b col) (wrapRow y) (wrapCol (x0 + col)) d) d
    (∀ r c, D.1.pixel r c =
      (d.1.pixel r c ^^ (decide (r = wrapRow y ∧ spriteCol x0 c < k) && spriteBit b (spriteCol x0 c)))) ∧
    (D.2 = true ↔ d.2 = true ∨
      ∃ col < k, spriteBit b col = true ∧ d.1.pixel (wrapRow y) (wrapCol (x0 + col)) = true) := by
  induction k with
  | zero => simp
  | succ k ih =>
    obtain ⟨hp, hc⟩ := ih (by omega)
    have hself : spriteCol x0 (wrapCol (x0 + k)) = k := (eq_wrapCol_iff x0 k _ (by omega)).mp rfl
    simp only [List.range_succ, List.foldl_append, List.foldl_cons, List.foldl_nil]
    refine ⟨fun r c => ?_, ?_⟩
    · rw [pixel_plot, hp, Bool.xor_assoc]
      simp only [eq_wrapCol_iff x0 k c (by omega)]
      congr 1
      by_cases hr : r = wrapRow y
      · rcases Nat.lt_trichotomy (spriteCol x0 c) k with h | h | h
        · simp [hr, h, Nat.ne_of_lt h, Nat.lt_succ_of_lt h]
        · simp [hr, h]
        · simp [hr, Nat.lt_asymm h, Nat.ne_of_gt h, Nat.not_lt.mpr (Nat.succ_le_of_lt h)]
      · simp [hr]
    · rw [collided_plot, hp, hself]
      simp only [Bool.or_eq_true, hc, Bool.and_eq_true, Nat.lt_irrefl, and_false, decide_false, Bool.false_and,
        Bool.xor_false, Nat.lt_succ_iff_lt_or_eq]
      constructor
      · rintro ((h | ⟨col, hl, hb⟩) | hb)
        · exact .inl h
        · exact .inr ⟨col, .inl hl, hb⟩
        · exact .inr ⟨k, .inr rfl, hb⟩
      · rintro (h | ⟨col, hl | rfl, hb⟩)
        · exact .inl (.inl h)
        · exact .inl (.inr ⟨col, hl, hb⟩)
        · exact .inr hb

/-- The rows of a sprite of at most 32 rows: each 1 bit is composed into its pixel by exclusive or, no pixel is met twice
(R124), and the draw collides exactly if some 1 bit falls on a pixel that was 1 before. -/
theorem drawRows_cases (x0 y : Nat) (bs : List Byte) (d : Framebuffer × Bool) (hb : bs.length ≤ 32) :
    (∀ r c, (drawRows x0 y bs d).1.pixel r c =
      (d.1.pixel r c ^^ (decide (spriteRow y r < bs.length ∧ spriteCol x0 c < 8) &&
        spriteBit (bs.getD (spriteRow y r) 0) (spriteCol x0 c)))) ∧
    ((drawRows x0 y bs d).2 = true ↔ d.2 = true ∨ ∃ row < bs.length, ∃ col < 8,
      spriteBit (bs.getD row 0) col = true ∧ d.1.pixel (wrapRow (y + row)) (wrapCol (x0 + col)) = true) := by
  induction bs generalizing y d with
  | nil => simp [drawRows]
  | cons b bs ih =>
    simp only [List.length_cons] at hb
    obtain ⟨hp, hc⟩ := ih (y + 1) (drawRow x0 y b d) (by omega)
    obtain ⟨hrp, hrc⟩ := drawCols_cases x0 y 8 b d (by omega)
    change (∀ r c, (drawRow x0 y b d).1.pixel r c = _) at hrp
    change ((drawRow x0 y b d).2 = true ↔ _) at hrc
    have hrow (r : Fin 32) : (r = wrapRow y) ↔ spriteRow y r = 0 := eq_wrapRow_iff y 0 r (by omega)
    have hnext (r : Fin 32) : spriteRow (y + 1) r = if spriteRow y r = 0 then 31 else spriteRow y r - 1 := by
      by_cases h0 : spriteRow y r = 0
      · rw [if_pos h0]; simp only [spriteRow] at h0 ⊢; omega
      · rw [if_neg h0]; simp only [spriteRow] at h0 ⊢; omega
    have hlt (r : Fin 32) : spriteRow y r < 32 := Nat.mod_lt _ (by decide)
    rw [drawRows]
    refine ⟨fun r c => ?_, ?_⟩
    · rw [hp, hrp, hnext, Bool.xor_assoc]
      congr 1
      simp only [List.length_cons, hrow]
      cases hr : spriteRow y r with
      | zero => simp [show ¬31 < bs.length by omega]
      | succ j => simp
    · rw [hc, hrc]
      have hpix (row : Nat) (h : row < bs.length) (col : Nat) :
          (drawRow x0 y b d).1.pixel (wrapRow (y + 1 + row)) (wrapCol (x0 + col)) =
            d.1.pixel (wrapRow (y + 1 + row)) (wrapCol (x0 + col)) := by
        rw [hrp, decide_eq_false, Bool.false_and, Bool.xor_false]
        rw [Fin.ext_iff, wrapRow_val, wrapRow_val]; omega
      constructor
      · rintro ((h | ⟨col, hl, hb'⟩) | ⟨row, hl, col, hcl, hbit, hpx⟩)
        · exact .inl h
        · exact .inr ⟨0, by simp, col, hl, by simpa using hb'⟩
        · refine .inr ⟨row + 1, by simpa using hl, col, hcl, by simpa using hbit, ?_⟩
          rw [hpix row hl col] at hpx
          rw [show y + (row + 1) = y + 1 + row by omega]; exact hpx
      · rintro (h | ⟨row, hl, col, hcl, hbit, hpx⟩)
        · exact .inl (.inl h)
        · cases row with
          | zero => exact .inl (.inr ⟨col, hcl, by simpa using hbit, hpx⟩)
          | succ row =>
            simp only [List.length_cons] at hl
            refine .inr ⟨row, by omega, col, hcl, by simpa using hbit, ?_⟩
            rw [hpix row (by omega) col, show y + 1 + row = y + (row + 1) by omega]; exact hpx

/-- What `draw_sprite` does with at most 32 rows: `drawRows_cases` from a clear `collided`. -/
theorem drawSprite_cases (x0 y0 : Nat) (bs : List Byte) (fb : Framebuffer) (hb : bs.length ≤ 32) :
    (∀ r c, (drawSprite x0 y0 bs fb).1.pixel r c =
      (fb.pixel r c ^^ (decide (spriteRow y0 r < bs.length ∧ spriteCol x0 c < 8) &&
        spriteBit (bs.getD (spriteRow y0 r) 0) (spriteCol x0 c)))) ∧
    ((drawSprite x0 y0 bs fb).2 = true ↔ ∃ row < bs.length, ∃ col < 8,
      spriteBit (bs.getD row 0) col = true ∧ fb.pixel (wrapRow (y0 + row)) (wrapCol (x0 + col)) = true) := by
  obtain ⟨hp, hc⟩ := drawRows_cases x0 y0 bs (fb, false) hb
  exact ⟨hp, hc.trans (by simp only [Bool.false_eq_true, false_or])⟩

end Sys2Proof.Machine
end

