-- ==== Sys2Proof/Laws/Memory.lean ====
section
/-! SUPPORT. Memory: a read after a write, runs of bytes, the canonical form is kept, and what the checked accessors answer (R32 to R36, R41). -/

namespace Sys2Proof.Machine

@[simp] theorem Memory.get_nil (a : Nat) : Memory.get [] a = resetByte a := rfl

theorem Memory.get_insert (m : Memory) (a c : Nat) (v : Byte) :
    (m.insert a v).get c = if c = a then v else m.get c := by
  induction m with
  | nil => simp only [Memory.insert, Memory.get]
  | cons d m ih =>
    simp only [Memory.insert]
    split
    · simp only [Memory.get]
    · split
      · rename_i h; subst h; simp only [Memory.get]; split <;> rfl
      · rename_i h
        simp only [Memory.get, ih]
        split
        · rename_i hc; rw [if_neg]; omega
        · rfl

theorem Memory.get_erase (m : Memory) (a c : Nat) :
    (m.erase a).get c = if c = a then resetByte c else m.get c := by
  induction m with
  | nil => simp [Memory.erase]
  | cons d m ih =>
    simp only [Memory.erase, List.filter_cons] at ih ⊢
    by_cases h : d.1 = a
    · simp only [h, bne_self_eq_false, Bool.false_eq_true, if_false, ih, Memory.get]
      split <;> rfl
    · simp only [bne_iff_ne, ne_eq, h, not_false_eq_true, if_true, Memory.get, ih]
      split
      · rename_i hc; rw [if_neg]; omega
      · rfl

/-- A read returns the last byte written, and a write leaves every other address alone (R36, R41). -/
@[simp] theorem Memory.get_set (m : Memory) (a c : Nat) (v : Byte) :
    (m.set a v).get c = if c = a then v else m.get c := by
  simp only [Memory.set]
  split
  · rename_i h; rw [Memory.get_erase]; split
    · rename_i hc; rw [h, hc]
    · rfl
  · exact Memory.get_insert m a c v

/-- After a run of bytes is written, an address inside it reads its byte and every other address reads as before. -/
theorem Memory.get_setSpan (m : Memory) (base c : Nat) (vs : List Byte) :
    (m.setSpan base vs).get c = if h : base ≤ c ∧ c - base < vs.length then vs[c - base]'h.2 else m.get c := by
  induction vs generalizing m base with
  | nil => simp [Memory.setSpan]
  | cons v vs ih =>
    rw [Memory.setSpan, ih]
    by_cases h1 : base + 1 ≤ c ∧ c - (base + 1) < vs.length
    · have hb : base ≤ c ∧ c - base < (v :: vs).length := by simp only [List.length_cons]; omega
      rw [dif_pos h1, dif_pos hb]
      have : c - base = c - (base + 1) + 1 := by omega
      simp only [this, List.getElem_cons_succ]
    · rw [dif_neg h1, Memory.get_set]
      by_cases hc : c = base
      · subst hc; simp
      · have hb : ¬(base ≤ c ∧ c - base < (v :: vs).length) := by simp only [List.length_cons]; omega
        rw [dif_neg hb, if_neg hc]

/-- Outside the run of bytes written every address reads as before. -/
theorem Memory.get_setSpan_outside (m : Memory) (base c : Nat) (vs : List Byte)
    (h : c < base ∨ base + vs.length ≤ c) : (m.setSpan base vs).get c = m.get c := by
  rw [Memory.get_setSpan, dif_neg]; omega

/-- Inside the run of bytes written an address reads its byte. -/
theorem Memory.get_setSpan_inside (m : Memory) (base k : Nat) (vs : List Byte) (h : k < vs.length) :
    (m.setSpan base vs).get (base + k) = vs[k] := by
  rw [Memory.get_setSpan, dif_pos (by omega)]; simp only [Nat.add_sub_cancel_left]

@[simp] theorem Memory.getSpan_length (m : Memory) (base n : Nat) : (m.getSpan base n).length = n := by
  simp [Memory.getSpan]

theorem Memory.getSpan_getElem (m : Memory) (base n k : Nat) (h : k < (m.getSpan base n).length) :
    (m.getSpan base n)[k] = m.get (base + k) := by
  simp [Memory.getSpan]

/-! ## The canonical form -/

theorem Memory.wf_nil : Memory.wf [] := by decide

theorem Memory.mem_insert {m : Memory} {a : Nat} {v : Byte} {c : Host.Cell} (h : c ∈ m.insert a v) :
    c = (a, v) ∨ c ∈ m := by
  induction m with
  | nil => simpa [Memory.insert] using h
  | cons d m ih =>
    simp only [Memory.insert] at h
    split at h
    · simpa using h
    · split at h
      · simp only [List.mem_cons] at h ⊢; tauto
      · simp only [List.mem_cons] at h ⊢
        rcases h with h | h
        · tauto
        · rcases ih h with h | h <;> tauto

theorem Memory.wf_insert {m : Memory} {a : Nat} {v : Byte} (hm : m.wf) (ha : a < Config.memSize)
    (hv : v ≠ resetByte a) : (m.insert a v).wf := by
  refine ⟨?_, fun c hc => ?_⟩
  · have hp := hm.1
    clear hm
    induction m with
    | nil => simp [Memory.insert]
    | cons d m ih =>
      simp only [Memory.insert]
      rw [List.pairwise_cons] at hp
      split
      · rename_i h
        refine List.pairwise_cons.mpr ⟨fun c hc => ?_, List.pairwise_cons.mpr hp⟩
        rcases List.mem_cons.mp hc with rfl | hc
        · exact h
        · exact lt_trans h (hp.1 c hc)
      · split
        · rename_i h
          exact List.pairwise_cons.mpr ⟨fun c hc => lt_of_eq_of_lt h (hp.1 c hc), hp.2⟩
        · rename_i h1 h2
          refine List.pairwise_cons.mpr ⟨fun c hc => ?_, ih hp.2⟩
          rcases Memory.mem_insert hc with rfl | hc
          · show d.1 < a; omega
          · exact hp.1 c hc
  · rcases Memory.mem_insert hc with rfl | hc
    · exact ⟨ha, hv⟩
    · exact hm.2 c hc

theorem Memory.wf_erase {m : Memory} (hm : m.wf) (a : Nat) : (m.erase a).wf :=
  ⟨hm.1.filter _, fun c hc => hm.2 c (List.mem_of_mem_filter hc)⟩

/-- A write below 4096 keeps the canonical form. -/
theorem Memory.wf_set {m : Memory} {a : Nat} (hm : m.wf) (ha : a < Config.memSize) (v : Byte) : (m.set a v).wf := by
  simp only [Memory.set]
  split
  · exact Memory.wf_erase hm a
  · exact Memory.wf_insert hm ha ‹_›

/-- A run of writes below 4096 keeps the canonical form. -/
theorem Memory.wf_setSpan {m : Memory} {base : Nat} {vs : List Byte} (hm : m.wf)
    (h : base + vs.length ≤ Config.memSize) : (m.setSpan base vs).wf := by
  induction vs generalizing m base with
  | nil => exact hm
  | cons v vs ih =>
    simp only [List.length_cons] at h
    exact ih (Memory.wf_set hm (by omega) v) (by omega)

/-! ## The checked accessors -/

@[simp] theorem readByte_ok (m : Memory) (a : Nat) (h : a < 4096) : readByte m a = .ok (m.get a) := by
  simp [readByte, h]

@[simp] theorem readByte_error (m : Memory) (a : Nat) (h : 4096 ≤ a) :
    readByte m a = .error (.addressOutOfBounds a) := by
  simp [readByte, Nat.not_lt.mpr h]

/-- A word read succeeds when both bytes are in range, high byte first (R32, R34). -/
theorem readWord_ok (m : Memory) (a : Nat) (h : a + 1 < 4096) : readWord m a = .ok (m.get a ++ m.get (a + 1)) := by
  simp [readWord, readByte_ok m a (by omega), readByte_ok m (a + 1) h]

/-- A word read that fails carries the lowest out-of-range address (R32). -/
theorem readWord_error (m : Memory) (a : Nat) (h : 4096 ≤ a + 1) :
    readWord m a = .error (.addressOutOfBounds (max a 4096)) := by
  by_cases ha : a < 4096
  · have : a = 4095 := by omega
    subst this
    simp [readWord]
  · simp [readWord, readByte_error m a (by omega), Nat.max_eq_left (Nat.not_lt.mp ha)]

theorem readWord_cases (m : Memory) (a : Nat) :
    (a + 1 < 4096 ∧ readWord m a = .ok (m.get a ++ m.get (a + 1))) ∨
      (4096 ≤ a + 1 ∧ readWord m a = .error (.addressOutOfBounds (max a 4096))) := by
  by_cases h : a + 1 < 4096
  · exact .inl ⟨h, readWord_ok m a h⟩
  · exact .inr ⟨by omega, readWord_error m a (by omega)⟩

theorem spanOut_eq_false (base n : Nat) (h : n = 0 ∨ base + n ≤ 4096) : spanOut base n = false := by
  simp only [spanOut, Config.memSize, Bool.and_eq_false_iff, decide_eq_false_iff_not]; omega

theorem spanOut_eq_true (base n : Nat) (h0 : n ≠ 0) (h : 4096 < base + n) : spanOut base n = true := by
  simp only [spanOut, Config.memSize, Bool.and_eq_true, decide_eq_true_eq]; omega

/-- What a checked read of a span answers. -/
theorem readSpan_cases (m : Memory) (base n : Nat) :
    ((n = 0 ∨ base + n ≤ 4096) ∧ readSpan m base n = .ok (m.getSpan base n)) ∨
      ((n ≠ 0 ∧ 4096 < base + n) ∧ readSpan m base n = .error (.addressOutOfBounds (max base 4096))) := by
  by_cases h : n = 0 ∨ base + n ≤ 4096
  · exact .inl ⟨h, by simp [readSpan, spanOut_eq_false base n h]⟩
  · exact .inr ⟨by omega, by simp [readSpan, spanOut_eq_true base n (by omega) (by omega), spanError]⟩

/-- What a checked write of a span answers: all of it or, with the lowest out-of-range address, none of it. -/
theorem writeSpan_cases (m : Memory) (base : Nat) (vs : List Byte) :
    ((vs = [] ∨ base + vs.length ≤ 4096) ∧ writeSpan m base vs = .ok (m.setSpan base vs)) ∨
      ((vs ≠ [] ∧ 4096 < base + vs.length) ∧ writeSpan m base vs = .error (.addressOutOfBounds (max base 4096))) := by
  by_cases h : vs.length = 0 ∨ base + vs.length ≤ 4096
  · exact .inl ⟨by simpa using h, by simp [writeSpan, spanOut_eq_false base _ h]⟩
  · have h0 : vs.length ≠ 0 := fun h0 => h (.inl h0)
    refine .inr ⟨⟨fun hv => h0 (by simp [hv]), by omega⟩, ?_⟩
    simp [writeSpan, spanOut_eq_true base _ h0 (by omega), spanError]

end Sys2Proof.Machine
end

