-- ==== Sys2Proof/Laws/State.lean ====
section
/-! SUPPORT. One lemma for each field under each update of the state, so that no proof unfolds a record update. -/

namespace Sys2Proof.Machine

/-! ### `State.setV` -/

@[simp] theorem State.setV_regs (s : State) (x : Reg) (b : Byte) : (s.setV x b).regs = s.regs.set x b := rfl
@[simp] theorem State.setV_index (s : State) (x : Reg) (b : Byte) : (s.setV x b).index = s.index := rfl
@[simp] theorem State.setV_pc (s : State) (x : Reg) (b : Byte) : (s.setV x b).pc = s.pc := rfl
@[simp] theorem State.setV_sp (s : State) (x : Reg) (b : Byte) : (s.setV x b).sp = s.sp := rfl
@[simp] theorem State.setV_stack (s : State) (x : Reg) (b : Byte) : (s.setV x b).stack = s.stack := rfl
@[simp] theorem State.setV_dt (s : State) (x : Reg) (b : Byte) : (s.setV x b).dt = s.dt := rfl
@[simp] theorem State.setV_st (s : State) (x : Reg) (b : Byte) : (s.setV x b).st = s.st := rfl
@[simp] theorem State.setV_mem (s : State) (x : Reg) (b : Byte) : (s.setV x b).mem = s.mem := rfl
@[simp] theorem State.setV_fb (s : State) (x : Reg) (b : Byte) : (s.setV x b).fb = s.fb := rfl
@[simp] theorem State.setV_keys (s : State) (x : Reg) (b : Byte) : (s.setV x b).keys = s.keys := rfl
@[simp] theorem State.setV_cpuState (s : State) (x : Reg) (b : Byte) : (s.setV x b).cpuState = s.cpuState := rfl
@[simp] theorem State.setV_fault (s : State) (x : Reg) (b : Byte) : (s.setV x b).fault = s.fault := rfl
@[simp] theorem State.setV_policy (s : State) (x : Reg) (b : Byte) : (s.setV x b).policy = s.policy := rfl
@[simp] theorem State.setV_draws (s : State) (x : Reg) (b : Byte) : (s.setV x b).draws = s.draws := rfl

/-! ### `State.setVFlag` -/

@[simp] theorem State.setVFlag_regs (s : State) (x : Reg) (b f : Byte) : (s.setVFlag x b f).regs = (s.regs.set x b).set vF f := rfl
@[simp] theorem State.setVFlag_index (s : State) (x : Reg) (b f : Byte) : (s.setVFlag x b f).index = s.index := rfl
@[simp] theorem State.setVFlag_pc (s : State) (x : Reg) (b f : Byte) : (s.setVFlag x b f).pc = s.pc := rfl
@[simp] theorem State.setVFlag_sp (s : State) (x : Reg) (b f : Byte) : (s.setVFlag x b f).sp = s.sp := rfl
@[simp] theorem State.setVFlag_stack (s : State) (x : Reg) (b f : Byte) : (s.setVFlag x b f).stack = s.stack := rfl
@[simp] theorem State.setVFlag_dt (s : State) (x : Reg) (b f : Byte) : (s.setVFlag x b f).dt = s.dt := rfl
@[simp] theorem State.setVFlag_st (s : State) (x : Reg) (b f : Byte) : (s.setVFlag x b f).st = s.st := rfl
@[simp] theorem State.setVFlag_mem (s : State) (x : Reg) (b f : Byte) : (s.setVFlag x b f).mem = s.mem := rfl
@[simp] theorem State.setVFlag_fb (s : State) (x : Reg) (b f : Byte) : (s.setVFlag x b f).fb = s.fb := rfl
@[simp] theorem State.setVFlag_keys (s : State) (x : Reg) (b f : Byte) : (s.setVFlag x b f).keys = s.keys := rfl
@[simp] theorem State.setVFlag_cpuState (s : State) (x : Reg) (b f : Byte) : (s.setVFlag x b f).cpuState = s.cpuState := rfl
@[simp] theorem State.setVFlag_fault (s : State) (x : Reg) (b f : Byte) : (s.setVFlag x b f).fault = s.fault := rfl
@[simp] theorem State.setVFlag_policy (s : State) (x : Reg) (b f : Byte) : (s.setVFlag x b f).policy = s.policy := rfl
@[simp] theorem State.setVFlag_draws (s : State) (x : Reg) (b f : Byte) : (s.setVFlag x b f).draws = s.draws := rfl

/-! ### `State.setIndex` -/

@[simp] theorem State.setIndex_regs (s : State) (w : Word) : (s.setIndex w).regs = s.regs := rfl
@[simp] theorem State.setIndex_index (s : State) (w : Word) : (s.setIndex w).index = w := rfl
@[simp] theorem State.setIndex_pc (s : State) (w : Word) : (s.setIndex w).pc = s.pc := rfl
@[simp] theorem State.setIndex_sp (s : State) (w : Word) : (s.setIndex w).sp = s.sp := rfl
@[simp] theorem State.setIndex_stack (s : State) (w : Word) : (s.setIndex w).stack = s.stack := rfl
@[simp] theorem State.setIndex_dt (s : State) (w : Word) : (s.setIndex w).dt = s.dt := rfl
@[simp] theorem State.setIndex_st (s : State) (w : Word) : (s.setIndex w).st = s.st := rfl
@[simp] theorem State.setIndex_mem (s : State) (w : Word) : (s.setIndex w).mem = s.mem := rfl
@[simp] theorem State.setIndex_fb (s : State) (w : Word) : (s.setIndex w).fb = s.fb := rfl
@[simp] theorem State.setIndex_keys (s : State) (w : Word) : (s.setIndex w).keys = s.keys := rfl
@[simp] theorem State.setIndex_cpuState (s : State) (w : Word) : (s.setIndex w).cpuState = s.cpuState := rfl
@[simp] theorem State.setIndex_fault (s : State) (w : Word) : (s.setIndex w).fault = s.fault := rfl
@[simp] theorem State.setIndex_policy (s : State) (w : Word) : (s.setIndex w).policy = s.policy := rfl
@[simp] theorem State.setIndex_draws (s : State) (w : Word) : (s.setIndex w).draws = s.draws := rfl

/-! ### `State.setPc` -/

@[simp] theorem State.setPc_regs (s : State) (w : Word) : (s.setPc w).regs = s.regs := rfl
@[simp] theorem State.setPc_index (s : State) (w : Word) : (s.setPc w).index = s.index := rfl
@[simp] theorem State.setPc_pc (s : State) (w : Word) : (s.setPc w).pc = w := rfl
@[simp] theorem State.setPc_sp (s : State) (w : Word) : (s.setPc w).sp = s.sp := rfl
@[simp] theorem State.setPc_stack (s : State) (w : Word) : (s.setPc w).stack = s.stack := rfl
@[simp] theorem State.setPc_dt (s : State) (w : Word) : (s.setPc w).dt = s.dt := rfl
@[simp] theorem State.setPc_st (s : State) (w : Word) : (s.setPc w).st = s.st := rfl
@[simp] theorem State.setPc_mem (s : State) (w : Word) : (s.setPc w).mem = s.mem := rfl
@[simp] theorem State.setPc_fb (s : State) (w : Word) : (s.setPc w).fb = s.fb := rfl
@[simp] theorem State.setPc_keys (s : State) (w : Word) : (s.setPc w).keys = s.keys := rfl
@[simp] theorem State.setPc_cpuState (s : State) (w : Word) : (s.setPc w).cpuState = s.cpuState := rfl
@[simp] theorem State.setPc_fault (s : State) (w : Word) : (s.setPc w).fault = s.fault := rfl
@[simp] theorem State.setPc_policy (s : State) (w : Word) : (s.setPc w).policy = s.policy := rfl
@[simp] theorem State.setPc_draws (s : State) (w : Word) : (s.setPc w).draws = s.draws := rfl

/-! ### `State.setDt` -/

@[simp] theorem State.setDt_regs (s : State) (b : Byte) : (s.setDt b).regs = s.regs := rfl
@[simp] theorem State.setDt_index (s : State) (b : Byte) : (s.setDt b).index = s.index := rfl
@[simp] theorem State.setDt_pc (s : State) (b : Byte) : (s.setDt b).pc = s.pc := rfl
@[simp] theorem State.setDt_sp (s : State) (b : Byte) : (s.setDt b).sp = s.sp := rfl
@[simp] theorem State.setDt_stack (s : State) (b : Byte) : (s.setDt b).stack = s.stack := rfl
@[simp] theorem State.setDt_dt (s : State) (b : Byte) : (s.setDt b).dt = b := rfl
@[simp] theorem State.setDt_st (s : State) (b : Byte) : (s.setDt b).st = s.st := rfl
@[simp] theorem State.setDt_mem (s : State) (b : Byte) : (s.setDt b).mem = s.mem := rfl
@[simp] theorem State.setDt_fb (s : State) (b : Byte) : (s.setDt b).fb = s.fb := rfl
@[simp] theorem State.setDt_keys (s : State) (b : Byte) : (s.setDt b).keys = s.keys := rfl
@[simp] theorem State.setDt_cpuState (s : State) (b : Byte) : (s.setDt b).cpuState = s.cpuState := rfl
@[simp] theorem State.setDt_fault (s : State) (b : Byte) : (s.setDt b).fault = s.fault := rfl
@[simp] theorem State.setDt_policy (s : State) (b : Byte) : (s.setDt b).policy = s.policy := rfl
@[simp] theorem State.setDt_draws (s : State) (b : Byte) : (s.setDt b).draws = s.draws := rfl

/-! ### `State.setSt` -/

@[simp] theorem State.setSt_regs (s : State) (b : Byte) : (s.setSt b).regs = s.regs := rfl
@[simp] theorem State.setSt_index (s : State) (b : Byte) : (s.setSt b).index = s.index := rfl
@[simp] theorem State.setSt_pc (s : State) (b : Byte) : (s.setSt b).pc = s.pc := rfl
@[simp] theorem State.setSt_sp (s : State) (b : Byte) : (s.setSt b).sp = s.sp := rfl
@[simp] theorem State.setSt_stack (s : State) (b : Byte) : (s.setSt b).stack = s.stack := rfl
@[simp] theorem State.setSt_dt (s : State) (b : Byte) : (s.setSt b).dt = s.dt := rfl
@[simp] theorem State.setSt_st (s : State) (b : Byte) : (s.setSt b).st = b := rfl
@[simp] theorem State.setSt_mem (s : State) (b : Byte) : (s.setSt b).mem = s.mem := rfl
@[simp] theorem State.setSt_fb (s : State) (b : Byte) : (s.setSt b).fb = s.fb := rfl
@[simp] theorem State.setSt_keys (s : State) (b : Byte) : (s.setSt b).keys = s.keys := rfl
@[simp] theorem State.setSt_cpuState (s : State) (b : Byte) : (s.setSt b).cpuState = s.cpuState := rfl
@[simp] theorem State.setSt_fault (s : State) (b : Byte) : (s.setSt b).fault = s.fault := rfl
@[simp] theorem State.setSt_policy (s : State) (b : Byte) : (s.setSt b).policy = s.policy := rfl
@[simp] theorem State.setSt_draws (s : State) (b : Byte) : (s.setSt b).draws = s.draws := rfl

/-! ### `State.setMem` -/

@[simp] theorem State.setMem_regs (s : State) (m : Memory) : (s.setMem m).regs = s.regs := rfl
@[simp] theorem State.setMem_index (s : State) (m : Memory) : (s.setMem m).index = s.index := rfl
@[simp] theorem State.setMem_pc (s : State) (m : Memory) : (s.setMem m).pc = s.pc := rfl
@[simp] theorem State.setMem_sp (s : State) (m : Memory) : (s.setMem m).sp = s.sp := rfl
@[simp] theorem State.setMem_stack (s : State) (m : Memory) : (s.setMem m).stack = s.stack := rfl
@[simp] theorem State.setMem_dt (s : State) (m : Memory) : (s.setMem m).dt = s.dt := rfl
@[simp] theorem State.setMem_st (s : State) (m : Memory) : (s.setMem m).st = s.st := rfl
@[simp] theorem State.setMem_mem (s : State) (m : Memory) : (s.setMem m).mem = m := rfl
@[simp] theorem State.setMem_fb (s : State) (m : Memory) : (s.setMem m).fb = s.fb := rfl
@[simp] theorem State.setMem_keys (s : State) (m : Memory) : (s.setMem m).keys = s.keys := rfl
@[simp] theorem State.setMem_cpuState (s : State) (m : Memory) : (s.setMem m).cpuState = s.cpuState := rfl
@[simp] theorem State.setMem_fault (s : State) (m : Memory) : (s.setMem m).fault = s.fault := rfl
@[simp] theorem State.setMem_policy (s : State) (m : Memory) : (s.setMem m).policy = s.policy := rfl
@[simp] theorem State.setMem_draws (s : State) (m : Memory) : (s.setMem m).draws = s.draws := rfl

/-! ### `State.setFb` -/

@[simp] theorem State.setFb_regs (s : State) (f : Framebuffer) : (s.setFb f).regs = s.regs := rfl
@[simp] theorem State.setFb_index (s : State) (f : Framebuffer) : (s.setFb f).index = s.index := rfl
@[simp] theorem State.setFb_pc (s : State) (f : Framebuffer) : (s.setFb f).pc = s.pc := rfl
@[simp] theorem State.setFb_sp (s : State) (f : Framebuffer) : (s.setFb f).sp = s.sp := rfl
@[simp] theorem State.setFb_stack (s : State) (f : Framebuffer) : (s.setFb f).stack = s.stack := rfl
@[simp] theorem State.setFb_dt (s : State) (f : Framebuffer) : (s.setFb f).dt = s.dt := rfl
@[simp] theorem State.setFb_st (s : State) (f : Framebuffer) : (s.setFb f).st = s.st := rfl
@[simp] theorem State.setFb_mem (s : State) (f : Framebuffer) : (s.setFb f).mem = s.mem := rfl
@[simp] theorem State.setFb_fb (s : State) (f : Framebuffer) : (s.setFb f).fb = f := rfl
@[simp] theorem State.setFb_keys (s : State) (f : Framebuffer) : (s.setFb f).keys = s.keys := rfl
@[simp] theorem State.setFb_cpuState (s : State) (f : Framebuffer) : (s.setFb f).cpuState = s.cpuState := rfl
@[simp] theorem State.setFb_fault (s : State) (f : Framebuffer) : (s.setFb f).fault = s.fault := rfl
@[simp] theorem State.setFb_policy (s : State) (f : Framebuffer) : (s.setFb f).policy = s.policy := rfl
@[simp] theorem State.setFb_draws (s : State) (f : Framebuffer) : (s.setFb f).draws = s.draws := rfl

/-! ### `State.setCpuState` -/

@[simp] theorem State.setCpuState_regs (s : State) (c : CpuState) : (s.setCpuState c).regs = s.regs := rfl
@[simp] theorem State.setCpuState_index (s : State) (c : CpuState) : (s.setCpuState c).index = s.index := rfl
@[simp] theorem State.setCpuState_pc (s : State) (c : CpuState) : (s.setCpuState c).pc = s.pc := rfl
@[simp] theorem State.setCpuState_sp (s : State) (c : CpuState) : (s.setCpuState c).sp = s.sp := rfl
@[simp] theorem State.setCpuState_stack (s : State) (c : CpuState) : (s.setCpuState c).stack = s.stack := rfl
@[simp] theorem State.setCpuState_dt (s : State) (c : CpuState) : (s.setCpuState c).dt = s.dt := rfl
@[simp] theorem State.setCpuState_st (s : State) (c : CpuState) : (s.setCpuState c).st = s.st := rfl
@[simp] theorem State.setCpuState_mem (s : State) (c : CpuState) : (s.setCpuState c).mem = s.mem := rfl
@[simp] theorem State.setCpuState_fb (s : State) (c : CpuState) : (s.setCpuState c).fb = s.fb := rfl
@[simp] theorem State.setCpuState_keys (s : State) (c : CpuState) : (s.setCpuState c).keys = s.keys := rfl
@[simp] theorem State.setCpuState_cpuState (s : State) (c : CpuState) : (s.setCpuState c).cpuState = c := rfl
@[simp] theorem State.setCpuState_fault (s : State) (c : CpuState) : (s.setCpuState c).fault = s.fault := rfl
@[simp] theorem State.setCpuState_policy (s : State) (c : CpuState) : (s.setCpuState c).policy = s.policy := rfl
@[simp] theorem State.setCpuState_draws (s : State) (c : CpuState) : (s.setCpuState c).draws = s.draws := rfl

/-! ### `State.advancePc` -/

@[simp] theorem State.advancePc_regs (s : State) : (s.advancePc).regs = s.regs := rfl
@[simp] theorem State.advancePc_index (s : State) : (s.advancePc).index = s.index := rfl
@[simp] theorem State.advancePc_pc (s : State) : (s.advancePc).pc = s.pc + 2 := rfl
@[simp] theorem State.advancePc_sp (s : State) : (s.advancePc).sp = s.sp := rfl
@[simp] theorem State.advancePc_stack (s : State) : (s.advancePc).stack = s.stack := rfl
@[simp] theorem State.advancePc_dt (s : State) : (s.advancePc).dt = s.dt := rfl
@[simp] theorem State.advancePc_st (s : State) : (s.advancePc).st = s.st := rfl
@[simp] theorem State.advancePc_mem (s : State) : (s.advancePc).mem = s.mem := rfl
@[simp] theorem State.advancePc_fb (s : State) : (s.advancePc).fb = s.fb := rfl
@[simp] theorem State.advancePc_keys (s : State) : (s.advancePc).keys = s.keys := rfl
@[simp] theorem State.advancePc_cpuState (s : State) : (s.advancePc).cpuState = s.cpuState := rfl
@[simp] theorem State.advancePc_fault (s : State) : (s.advancePc).fault = s.fault := rfl
@[simp] theorem State.advancePc_policy (s : State) : (s.advancePc).policy = s.policy := rfl
@[simp] theorem State.advancePc_draws (s : State) : (s.advancePc).draws = s.draws := rfl

/-! ### `State.countDraw` -/

@[simp] theorem State.countDraw_regs (s : State) : (s.countDraw).regs = s.regs := rfl
@[simp] theorem State.countDraw_index (s : State) : (s.countDraw).index = s.index := rfl
@[simp] theorem State.countDraw_pc (s : State) : (s.countDraw).pc = s.pc := rfl
@[simp] theorem State.countDraw_sp (s : State) : (s.countDraw).sp = s.sp := rfl
@[simp] theorem State.countDraw_stack (s : State) : (s.countDraw).stack = s.stack := rfl
@[simp] theorem State.countDraw_dt (s : State) : (s.countDraw).dt = s.dt := rfl
@[simp] theorem State.countDraw_st (s : State) : (s.countDraw).st = s.st := rfl
@[simp] theorem State.countDraw_mem (s : State) : (s.countDraw).mem = s.mem := rfl
@[simp] theorem State.countDraw_fb (s : State) : (s.countDraw).fb = s.fb := rfl
@[simp] theorem State.countDraw_keys (s : State) : (s.countDraw).keys = s.keys := rfl
@[simp] theorem State.countDraw_cpuState (s : State) : (s.countDraw).cpuState = s.cpuState := rfl
@[simp] theorem State.countDraw_fault (s : State) : (s.countDraw).fault = s.fault := rfl
@[simp] theorem State.countDraw_policy (s : State) : (s.countDraw).policy = s.policy := rfl
@[simp] theorem State.countDraw_draws (s : State) : (s.countDraw).draws = s.draws + 1 := rfl

/-! ### `State.raise` -/

@[simp] theorem State.raise_regs (s : State) (e : RunError) (a : Word) (w : Option Word) : (s.raise e a w).regs = s.regs := rfl
@[simp] theorem State.raise_index (s : State) (e : RunError) (a : Word) (w : Option Word) : (s.raise e a w).index = s.index := rfl
@[simp] theorem State.raise_pc (s : State) (e : RunError) (a : Word) (w : Option Word) : (s.raise e a w).pc = s.pc := rfl
@[simp] theorem State.raise_sp (s : State) (e : RunError) (a : Word) (w : Option Word) : (s.raise e a w).sp = s.sp := rfl
@[simp] theorem State.raise_stack (s : State) (e : RunError) (a : Word) (w : Option Word) : (s.raise e a w).stack = s.stack := rfl
@[simp] theorem State.raise_dt (s : State) (e : RunError) (a : Word) (w : Option Word) : (s.raise e a w).dt = s.dt := rfl
@[simp] theorem State.raise_st (s : State) (e : RunError) (a : Word) (w : Option Word) : (s.raise e a w).st = s.st := rfl
@[simp] theorem State.raise_mem (s : State) (e : RunError) (a : Word) (w : Option Word) : (s.raise e a w).mem = s.mem := rfl
@[simp] theorem State.raise_fb (s : State) (e : RunError) (a : Word) (w : Option Word) : (s.raise e a w).fb = s.fb := rfl
@[simp] theorem State.raise_keys (s : State) (e : RunError) (a : Word) (w : Option Word) : (s.raise e a w).keys = s.keys := rfl
@[simp] theorem State.raise_cpuState (s : State) (e : RunError) (a : Word) (w : Option Word) : (s.raise e a w).cpuState = s.cpuState := rfl
@[simp] theorem State.raise_fault (s : State) (e : RunError) (a : Word) (w : Option Word) : (s.raise e a w).fault = some { error := e, address := a, word := w } := rfl
@[simp] theorem State.raise_policy (s : State) (e : RunError) (a : Word) (w : Option Word) : (s.raise e a w).policy = s.policy := rfl
@[simp] theorem State.raise_draws (s : State) (e : RunError) (a : Word) (w : Option Word) : (s.raise e a w).draws = s.draws := rfl

/-! ### `State.raiseFetch` -/

@[simp] theorem State.raiseFetch_regs (s : State) (e : RunError) : (s.raiseFetch e).regs = s.regs := rfl
@[simp] theorem State.raiseFetch_index (s : State) (e : RunError) : (s.raiseFetch e).index = s.index := rfl
@[simp] theorem State.raiseFetch_pc (s : State) (e : RunError) : (s.raiseFetch e).pc = s.pc := rfl
@[simp] theorem State.raiseFetch_sp (s : State) (e : RunError) : (s.raiseFetch e).sp = s.sp := rfl
@[simp] theorem State.raiseFetch_stack (s : State) (e : RunError) : (s.raiseFetch e).stack = s.stack := rfl
@[simp] theorem State.raiseFetch_dt (s : State) (e : RunError) : (s.raiseFetch e).dt = s.dt := rfl
@[simp] theorem State.raiseFetch_st (s : State) (e : RunError) : (s.raiseFetch e).st = s.st := rfl
@[simp] theorem State.raiseFetch_mem (s : State) (e : RunError) : (s.raiseFetch e).mem = s.mem := rfl
@[simp] theorem State.raiseFetch_fb (s : State) (e : RunError) : (s.raiseFetch e).fb = s.fb := rfl
@[simp] theorem State.raiseFetch_keys (s : State) (e : RunError) : (s.raiseFetch e).keys = s.keys := rfl
@[simp] theorem State.raiseFetch_cpuState (s : State) (e : RunError) : (s.raiseFetch e).cpuState = s.cpuState := rfl
@[simp] theorem State.raiseFetch_fault (s : State) (e : RunError) : (s.raiseFetch e).fault = some { error := e, address := s.pc, word := none } := rfl
@[simp] theorem State.raiseFetch_policy (s : State) (e : RunError) : (s.raiseFetch e).policy = s.policy := rfl
@[simp] theorem State.raiseFetch_draws (s : State) (e : RunError) : (s.raiseFetch e).draws = s.draws := rfl

/-! ### `State.raiseInstr` -/

@[simp] theorem State.raiseInstr_regs (s : State) (i : Instr) (e : RunError) : (s.raiseInstr i e).regs = s.regs := rfl
@[simp] theorem State.raiseInstr_index (s : State) (i : Instr) (e : RunError) : (s.raiseInstr i e).index = s.index := rfl
@[simp] theorem State.raiseInstr_pc (s : State) (i : Instr) (e : RunError) : (s.raiseInstr i e).pc = s.pc := rfl
@[simp] theorem State.raiseInstr_sp (s : State) (i : Instr) (e : RunError) : (s.raiseInstr i e).sp = s.sp := rfl
@[simp] theorem State.raiseInstr_stack (s : State) (i : Instr) (e : RunError) : (s.raiseInstr i e).stack = s.stack := rfl
@[simp] theorem State.raiseInstr_dt (s : State) (i : Instr) (e : RunError) : (s.raiseInstr i e).dt = s.dt := rfl
@[simp] theorem State.raiseInstr_st (s : State) (i : Instr) (e : RunError) : (s.raiseInstr i e).st = s.st := rfl
@[simp] theorem State.raiseInstr_mem (s : State) (i : Instr) (e : RunError) : (s.raiseInstr i e).mem = s.mem := rfl
@[simp] theorem State.raiseInstr_fb (s : State) (i : Instr) (e : RunError) : (s.raiseInstr i e).fb = s.fb := rfl
@[simp] theorem State.raiseInstr_keys (s : State) (i : Instr) (e : RunError) : (s.raiseInstr i e).keys = s.keys := rfl
@[simp] theorem State.raiseInstr_cpuState (s : State) (i : Instr) (e : RunError) : (s.raiseInstr i e).cpuState = s.cpuState := rfl
@[simp] theorem State.raiseInstr_fault (s : State) (i : Instr) (e : RunError) : (s.raiseInstr i e).fault = some { error := e, address := s.pc - 2, word := some (encode i) } := rfl
@[simp] theorem State.raiseInstr_policy (s : State) (i : Instr) (e : RunError) : (s.raiseInstr i e).policy = s.policy := rfl
@[simp] theorem State.raiseInstr_draws (s : State) (i : Instr) (e : RunError) : (s.raiseInstr i e).draws = s.draws := rfl

/-! ### `State.blit` -/

@[simp] theorem State.blit_regs (s : State) (x y : Reg) (bs : List Byte) : (s.blit x y bs).regs = s.regs.set vF (collisionFlag (drawSprite (s.v x).toNat (s.v y).toNat bs s.fb).2) := rfl
@[simp] theorem State.blit_index (s : State) (x y : Reg) (bs : List Byte) : (s.blit x y bs).index = s.index := rfl
@[simp] theorem State.blit_pc (s : State) (x y : Reg) (bs : List Byte) : (s.blit x y bs).pc = s.pc := rfl
@[simp] theorem State.blit_sp (s : State) (x y : Reg) (bs : List Byte) : (s.blit x y bs).sp = s.sp := rfl
@[simp] theorem State.blit_stack (s : State) (x y : Reg) (bs : List Byte) : (s.blit x y bs).stack = s.stack := rfl
@[simp] theorem State.blit_dt (s : State) (x y : Reg) (bs : List Byte) : (s.blit x y bs).dt = s.dt := rfl
@[simp] theorem State.blit_st (s : State) (x y : Reg) (bs : List Byte) : (s.blit x y bs).st = s.st := rfl
@[simp] theorem State.blit_mem (s : State) (x y : Reg) (bs : List Byte) : (s.blit x y bs).mem = s.mem := rfl
@[simp] theorem State.blit_fb (s : State) (x y : Reg) (bs : List Byte) : (s.blit x y bs).fb = (drawSprite (s.v x).toNat (s.v y).toNat bs s.fb).1 := rfl
@[simp] theorem State.blit_keys (s : State) (x y : Reg) (bs : List Byte) : (s.blit x y bs).keys = s.keys := rfl
@[simp] theorem State.blit_cpuState (s : State) (x y : Reg) (bs : List Byte) : (s.blit x y bs).cpuState = s.cpuState := rfl
@[simp] theorem State.blit_fault (s : State) (x y : Reg) (bs : List Byte) : (s.blit x y bs).fault = s.fault := rfl
@[simp] theorem State.blit_policy (s : State) (x y : Reg) (bs : List Byte) : (s.blit x y bs).policy = s.policy := rfl
@[simp] theorem State.blit_draws (s : State) (x y : Reg) (bs : List Byte) : (s.blit x y bs).draws = s.draws := rfl

/-! ### `State.skipIf`: only PC may change -/

@[simp] theorem State.skipIf_regs (s : State) (c : Bool) : (s.skipIf c).regs = s.regs := by cases c <;> rfl
@[simp] theorem State.skipIf_index (s : State) (c : Bool) : (s.skipIf c).index = s.index := by cases c <;> rfl
@[simp] theorem State.skipIf_pc (s : State) (c : Bool) : (s.skipIf c).pc = if c then s.pc + 2 else s.pc := by
  cases c <;> rfl
@[simp] theorem State.skipIf_sp (s : State) (c : Bool) : (s.skipIf c).sp = s.sp := by cases c <;> rfl
@[simp] theorem State.skipIf_stack (s : State) (c : Bool) : (s.skipIf c).stack = s.stack := by cases c <;> rfl
@[simp] theorem State.skipIf_dt (s : State) (c : Bool) : (s.skipIf c).dt = s.dt := by cases c <;> rfl
@[simp] theorem State.skipIf_st (s : State) (c : Bool) : (s.skipIf c).st = s.st := by cases c <;> rfl
@[simp] theorem State.skipIf_mem (s : State) (c : Bool) : (s.skipIf c).mem = s.mem := by cases c <;> rfl
@[simp] theorem State.skipIf_fb (s : State) (c : Bool) : (s.skipIf c).fb = s.fb := by cases c <;> rfl
@[simp] theorem State.skipIf_keys (s : State) (c : Bool) : (s.skipIf c).keys = s.keys := by cases c <;> rfl
@[simp] theorem State.skipIf_cpuState (s : State) (c : Bool) : (s.skipIf c).cpuState = s.cpuState := by cases c <;> rfl
@[simp] theorem State.skipIf_fault (s : State) (c : Bool) : (s.skipIf c).fault = s.fault := by cases c <;> rfl
@[simp] theorem State.skipIf_policy (s : State) (c : Bool) : (s.skipIf c).policy = s.policy := by cases c <;> rfl
@[simp] theorem State.skipIf_draws (s : State) (c : Bool) : (s.skipIf c).draws = s.draws := by cases c <;> rfl

/-! ### General registers: a read after a write (R11) -/

theorem State.v_eq (s : State) (x : Reg) : s.v x = s.regs[x] := rfl

/-- A register holds the last value written, and a write leaves every other register alone (R11). -/
@[simp] theorem State.v_setV (s : State) (x r : Reg) (b : Byte) :
    (s.setV x b).v r = if r = x then b else s.v r := by
  simp only [State.v, State.setV_regs, Fin.getElem_fin, Vector.getElem_set, Fin.val_inj, eq_comm]

/-- After a result and a flag are written VF holds the flag (R13). -/
@[simp] theorem State.v_setVFlag (s : State) (x r : Reg) (b f : Byte) :
    (s.setVFlag x b f).v r = if r = vF then f else if r = x then b else s.v r := by
  simp only [State.setVFlag, State.v_setV]

@[simp] theorem State.v_setIndex (s : State) (w : Word) (r : Reg) : (s.setIndex w).v r = s.v r := rfl
@[simp] theorem State.v_setPc (s : State) (w : Word) (r : Reg) : (s.setPc w).v r = s.v r := rfl
@[simp] theorem State.v_setDt (s : State) (b : Byte) (r : Reg) : (s.setDt b).v r = s.v r := rfl
@[simp] theorem State.v_setSt (s : State) (b : Byte) (r : Reg) : (s.setSt b).v r = s.v r := rfl
@[simp] theorem State.v_setMem (s : State) (m : Memory) (r : Reg) : (s.setMem m).v r = s.v r := rfl
@[simp] theorem State.v_setFb (s : State) (f : Framebuffer) (r : Reg) : (s.setFb f).v r = s.v r := rfl
@[simp] theorem State.v_setCpuState (s : State) (c : CpuState) (r : Reg) : (s.setCpuState c).v r = s.v r := rfl
@[simp] theorem State.v_advancePc (s : State) (r : Reg) : (s.advancePc).v r = s.v r := rfl
@[simp] theorem State.v_countDraw (s : State) (r : Reg) : (s.countDraw).v r = s.v r := rfl
@[simp] theorem State.v_raise (s : State) (e : RunError) (a : Word) (w : Option Word) (r : Reg) : (s.raise e a w).v r = s.v r := rfl
@[simp] theorem State.v_raiseFetch (s : State) (e : RunError) (r : Reg) : (s.raiseFetch e).v r = s.v r := rfl
@[simp] theorem State.v_raiseInstr (s : State) (i : Instr) (e : RunError) (r : Reg) : (s.raiseInstr i e).v r = s.v r := rfl
@[simp] theorem State.v_skipIf (s : State) (c : Bool) (r : Reg) : (s.skipIf c).v r = s.v r := by cases c <;> rfl

@[simp] theorem State.v_blit (s : State) (x y : Reg) (bs : List Byte) (r : Reg) :
    (s.blit x y bs).v r =
      if r = vF then collisionFlag (drawSprite (s.v x).toNat (s.v y).toNat bs s.fb).2 else s.v r := by
  simp only [State.v, State.blit_regs, Fin.getElem_fin, Vector.getElem_set, Fin.val_inj, eq_comm]

end Sys2Proof.Machine
end

