-- ==== Sys2Proof/Laws/Ops.lean ====
section
/-! SUPPORT. The shared operations: fetch, the call stack, the operand helpers and the flags, one lemma for each on everything it can answer. -/

namespace Sys2Proof.Machine

/-! ## Fetch (R72) -/

/-- A fetch reads the two bytes at PC, high byte first, and advances PC; or PC is too high and it raises. -/
theorem fetch_cases (s : State) :
    (s.pc.toNat + 1 < 4096 ∧
        fetch s = .ok (s.mem.get s.pc.toNat ++ s.mem.get (s.pc.toNat + 1), s.advancePc)) ∨
      (4096 ≤ s.pc.toNat + 1 ∧ fetch s = .error (.addressOutOfBounds (max s.pc.toNat 4096))) := by
  rcases readWord_cases s.mem s.pc.toNat with ⟨h, hr⟩ | ⟨h, hr⟩
  · exact .inl ⟨h, by rw [fetch, hr]⟩
  · exact .inr ⟨h, by rw [fetch, hr]⟩

/-! ## The call stack (R19) -/

theorem pushSlot_cases (sp : Fin 17) :
    (sp.val = 16 ∧ pushSlot sp = none) ∨ ∃ j : Fin 16, j.val = sp.val ∧ pushSlot sp = some j := by
  by_cases h : sp.val < 16
  · exact .inr ⟨⟨sp.val, h⟩, rfl, by simp [pushSlot, h]⟩
  · exact .inl ⟨by omega, by simp [pushSlot, h]⟩

theorem popSlot_cases (sp : Fin 17) :
    (sp.val = 0 ∧ popSlot sp = none) ∨ ∃ j : Fin 16, j.val + 1 = sp.val ∧ popSlot sp = some j := by
  by_cases h : 0 < sp.val
  · exact .inr ⟨⟨sp.val - 1, by omega⟩, by simp only; omega, by simp [popSlot, h]⟩
  · exact .inl ⟨by omega, by simp [popSlot, h]⟩

/-- A push on a full stack is StackOverflow; else it stores at `stack[SP]` and increments SP. -/
theorem push_cases (s : State) (w : Word) :
    (s.sp.val = 16 ∧ push s w = .error .stackOverflow) ∨
      ∃ j : Fin 16, j.val = s.sp.val ∧ push s w = .ok { s with stack := s.stack.set j w, sp := j.succ } := by
  rcases pushSlot_cases s.sp with ⟨h, hj⟩ | ⟨j, h, hj⟩
  · exact .inl ⟨h, by rw [push, hj]⟩
  · exact .inr ⟨j, h, by rw [push, hj]⟩

/-- A pop of an empty stack is StackUnderflow; else it decrements SP and reads `stack[SP]`. -/
theorem pop_cases (s : State) :
    (s.sp.val = 0 ∧ pop s = .error .stackUnderflow) ∨
      ∃ j : Fin 16, j.val + 1 = s.sp.val ∧ pop s = .ok (s.stack[j], { s with sp := j.castSucc }) := by
  rcases popSlot_cases s.sp with ⟨h, hj⟩ | ⟨j, h, hj⟩
  · exact .inl ⟨h, by rw [pop, hj]⟩
  · exact .inr ⟨j, h, by rw [pop, hj]⟩

/-! ## Operands -/

theorem addrWord_toNat (nnn : Addr) : (addrWord nnn).toNat = nnn.toNat := by
  simp only [addrWord, BitVec.toNat_setWidth]
  have := nnn.isLt
  omega

theorem jumpV0Target_toNat (nnn : Addr) (b : Byte) : (jumpV0Target nnn b).toNat = nnn.toNat + b.toNat := by
  simp only [jumpV0Target, BitVec.toNat_add, addrWord_toNat, BitVec.toNat_setWidth]
  have := nnn.isLt
  have := b.isLt
  omega

theorem lowNibble_val (b : Byte) : (lowNibble b).val = b.toNat % 16 := by
  show (b.extractLsb' 0 4).toNat = _
  simp

theorem glyphAddr_toNat (b : Byte) : (glyphAddr b).toNat = 80 + 5 * (b.toNat % 16) := by
  simp only [glyphAddr, fontBase, fontGlyphBytes, lowNibble_val, BitVec.toNat_ofNat]
  omega

@[simp] theorem bcdDigits_length (b : Byte) : (bcdDigits b).length = 3 := rfl

@[simp] theorem regsUpTo_length (s : State) (x : Reg) : (regsUpTo s x).length = x.val + 1 := by
  simp only [regsUpTo, List.length_take, Vector.length_toList]
  omega

theorem regsUpTo_getElem (s : State) (x : Reg) (i : Reg) (h : i.val < (regsUpTo s x).length) :
    (regsUpTo s x)[i.val] = s.v i := by
  simp only [regsUpTo, List.getElem_take, Vector.getElem_toList, State.v, Fin.getElem_fin]

/-- A bulk load gives register i the i-th byte, and leaves the registers past the bytes alone. -/
theorem loadRegs_getElem (regs : Vector Byte 16) (bytes : List Byte) (i : Fin 16) :
    (loadRegs regs bytes)[i] = if h : i.val < bytes.length then bytes[i.val] else regs[i] := by
  simp only [loadRegs, Fin.getElem_fin, Vector.getElem_ofFn, List.getD_eq_getElem?_getD]
  split
  · rw [List.getElem?_eq_getElem ‹_›, Option.getD_some]
  · rw [List.getElem?_eq_none (by omega), Option.getD_none]

/-- The key a wait captures is held and no smaller one is; there is none exactly when no key is held (R71). -/
theorem lowestHeld_cases (keys : Vector Bool 16) :
    ((∀ k : Fin 16, keys[k] = false) ∧ lowestHeld keys = none) ∨
      ∃ k : Fin 16, lowestHeld keys = some k ∧ keys[k] = true ∧ ∀ j : Fin 16, j < k → keys[j] = false := by
  cases h : lowestHeld keys with
  | none =>
    left
    refine ⟨fun k => ?_, rfl⟩
    have := List.find?_eq_none.mp h k (List.mem_finRange k)
    simpa using this
  | some k =>
    right
    refine ⟨k, rfl, by simpa using List.find?_some h, fun j hj => ?_⟩
    rw [lowestHeld, List.find?_eq_some_iff_getElem] at h
    obtain ⟨_, i, hi, hik, hmin⟩ := h
    have hi16 : i < 16 := by simpa using hi
    have hkv : k.val = i := by rw [← hik]; simp
    have hji : j.val < i := by omega
    simpa using hmin j.val hji

/-! ## Flags (R12, R81) -/

theorem flagByte_toNat (b : Bool) : (flagByte b).toNat = if b then 1 else 0 := by cases b <;> rfl

theorem carryFlag_toNat (a b : Byte) : (carryFlag a b).toNat = if 255 < a.toNat + b.toNat then 1 else 0 := by
  simp only [carryFlag, flagByte_toNat, decide_eq_true_eq]

theorem notBorrowFlag_toNat (a b : Byte) : (notBorrowFlag a b).toNat = if b.toNat ≤ a.toNat then 1 else 0 := by
  simp only [notBorrowFlag, flagByte_toNat, decide_eq_true_eq]

theorem shiftedOutRight_toNat (a : Byte) : (shiftedOutRight a).toNat = a.toNat % 2 := by
  revert a; decide

theorem shiftedOutLeft_toNat (a : Byte) : (shiftedOutLeft a).toNat = a.toNat / 128 := by
  revert a; decide

end Sys2Proof.Machine
end

