-- ==== Sys2Proof/Laws/Exec.lean ====
section
/-! SUPPORT. What each meaning with more than one outcome can answer, said once. -/

namespace Sys2Proof.Machine

/-- A store at I writes all its bytes, or raises with the lowest out-of-range address and writes none (R146). -/
theorem storeAtI_cases (i : Instr) (bytes : List Byte) (s : State) :
    ((bytes = [] ∨ s.index.toNat + bytes.length ≤ 4096) ∧
        storeAtI i bytes s = .next (s.setMem (s.mem.setSpan s.index.toNat bytes))) ∨
      ((bytes ≠ [] ∧ 4096 < s.index.toNat + bytes.length) ∧
        storeAtI i bytes s = .next (s.raiseInstr i (.addressOutOfBounds (max s.index.toNat 4096)))) := by
  rcases writeSpan_cases s.mem s.base bytes with ⟨h, hw⟩ | ⟨h, hw⟩
  · exact .inl ⟨h, by rw [storeAtI, hw]; rfl⟩
  · exact .inr ⟨h, by rw [storeAtI, hw]; rfl⟩

/-- Fx65 loads the registers, or raises and writes none (R145). -/
theorem execLdRegs_cases (x : Reg) (s : State) :
    (s.index.toNat + x.val < 4096 ∧
        execLdRegs x s = .next { s with regs := loadRegs s.regs (s.mem.getSpan s.index.toNat (x.val + 1)) }) ∨
      (4096 ≤ s.index.toNat + x.val ∧
        execLdRegs x s = .next (s.raiseInstr (.ldRegs x) (.addressOutOfBounds (max s.index.toNat 4096)))) := by
  rcases readSpan_cases s.mem s.base (x.val + 1) with ⟨h, hr⟩ | ⟨h, hr⟩
  · exact .inl ⟨by rw [State.base] at h; omega, by rw [execLdRegs, hr]; rfl⟩
  · exact .inr ⟨by rw [State.base] at h; omega, by rw [execLdRegs, hr]; rfl⟩

/-- Dxyn draws, or raises and draws nothing (R122). -/
theorem execDrw_cases (x y n : Reg) (s : State) :
    ((n.val = 0 ∨ s.index.toNat + n.val ≤ 4096) ∧
        execDrw x y n s = .next (s.blit x y (s.mem.getSpan s.index.toNat n.val))) ∨
      ((n.val ≠ 0 ∧ 4096 < s.index.toNat + n.val) ∧
        execDrw x y n s = .next (s.raiseInstr (.drw x y n) (.addressOutOfBounds (max s.index.toNat 4096)))) := by
  rcases readSpan_cases s.mem s.base n.val with ⟨h, hr⟩ | ⟨h, hr⟩
  · exact .inl ⟨h, by rw [execDrw, hr]; rfl⟩
  · exact .inr ⟨h, by rw [execDrw, hr]; rfl⟩

/-- 2nnn pushes and jumps, or raises StackOverflow (R111). -/
theorem execCall_cases (nnn : Addr) (s : State) :
    (s.sp.val = 16 ∧ execCall nnn s = .next (s.raiseInstr (.call nnn) .stackOverflow)) ∨
      ∃ j : Fin 16, j.val = s.sp.val ∧ execCall nnn s =
        .next { s with stack := s.stack.set j s.pc, sp := j.succ, pc := addrWord nnn } := by
  rcases push_cases s s.pc with ⟨h, hp⟩ | ⟨j, h, hp⟩
  · exact .inl ⟨h, by rw [execCall, hp]⟩
  · exact .inr ⟨j, h, by rw [execCall, hp]; rfl⟩

/-- 00EE pops into PC, or raises StackUnderflow (R113). -/
theorem execRet_cases (s : State) :
    (s.sp.val = 0 ∧ execRet s = .next (s.raiseInstr .ret .stackUnderflow)) ∨
      ∃ j : Fin 16, j.val + 1 = s.sp.val ∧ execRet s = .next { s with sp := j.castSucc, pc := s.stack[j] } := by
  rcases pop_cases s with ⟨h, hp⟩ | ⟨j, h, hp⟩
  · exact .inl ⟨h, by rw [execRet, hp]⟩
  · exact .inr ⟨j, h, by rw [execRet, hp]; rfl⟩

/-- An unknown word raises under `Fatal` and does nothing under `Nop` (R150). -/
theorem execUnknown_cases (op : Word) (s : State) :
    (s.policy = .fatal ∧ execUnknown op s = .next (s.raiseInstr (.unknown op) (.unknownOpcode op))) ∨
      (s.policy = .nop ∧ execUnknown op s = .next s) := by
  cases h : s.policy
  · exact .inl ⟨rfl, by rw [execUnknown, h]⟩
  · exact .inr ⟨rfl, by rw [execUnknown, h]⟩

end Sys2Proof.Machine
end

