-- ==== Sys2Proof/Laws/PerInstr.lean ====
section
/-! SUPPORT. Decode after encode, one lemma for each constructor (R56, R57). -/

-- One theorem after another: all of them at once take more threads than a small memory limit allows.
set_option Elab.async false

namespace Sys2Proof.Laws.EncodeDecode

/-- Decoding the word of a well-formed instruction gives the instruction back. -/
def Statement (i : Instr) : Prop := i.wellFormed = true → decode (encode i) = i

theorem not_selected {op : Word} (h : namedWord op = false) {r : OpcodeRow} (hr : r ∈ opcodeMap) :
    ¬r.selects op = true := by
  simp only [namedWord, List.any_eq_false] at h
  exact h r hr

/-- A word that no row of the opcode map matches decodes to `Unknown` of itself (R58). -/
theorem decode_unnamed (op : Word) (h : namedWord op = false) : decode op = .unknown op := by
  have hG (g : Nibble) (hr : OpcodeRow.mk 0xF000 (packXYN g 0 0 0) ∈ opcodeMap)
      (hg : (fieldG op).toNat = g.toNat) : False :=
    not_selected h hr ((selects_F000 op g).mpr (BitVec.eq_of_toNat_eq hg))
  have hN (g : Nibble) (n : Reg) (hr : OpcodeRow.mk 0xF00F (packXYN g 0 0 n) ∈ opcodeMap)
      (hg : (fieldG op).toNat = g.toNat) : fieldN op ≠ n := fun hn =>
    not_selected h hr ((selects_F00F op g n).mpr ⟨BitVec.eq_of_toNat_eq hg, hn⟩)
  have hK (g : Nibble) (y n : Reg) (kk : Byte) (hr : OpcodeRow.mk 0xF0FF (packXYN g 0 y n) ∈ opcodeMap)
      (hkk : kk = BitVec.ofNat 8 (y.val * 16 + n.val)) (hg : (fieldG op).toNat = g.toNat) : fieldKK op ≠ kk := fun hk =>
    not_selected h hr ((selects_F0FF op g y n).mpr ⟨BitVec.eq_of_toNat_eq hg, hk.trans hkk⟩)
  have hW (w : Word) (hr : OpcodeRow.mk 0xFFFF w ∈ opcodeMap) : op ≠ w := fun hw =>
    not_selected h hr ((selects_FFFF op w).mpr hw)
  have h8 (hg : (fieldG op).toNat = 8) : decodeGroup8 op = .unknown op := by
    have hn (n : Reg) (hr : OpcodeRow.mk 0xF00F (packXYN 8 0 0 n) ∈ opcodeMap) (hv : (fieldN op).val = n.val) :
        False := hN 8 n hr hg (Fin.ext hv)
    unfold decodeGroup8
    split
    · exact (hn 0 (by decide) ‹_›).elim
    · exact (hn 1 (by decide) ‹_›).elim
    · exact (hn 2 (by decide) ‹_›).elim
    · exact (hn 3 (by decide) ‹_›).elim
    · exact (hn 4 (by decide) ‹_›).elim
    · exact (hn 5 (by decide) ‹_›).elim
    · exact (hn 6 (by decide) ‹_›).elim
    · exact (hn 7 (by decide) ‹_›).elim
    · exact (hn 14 (by decide) ‹_›).elim
    · rfl
  have hF (hg : (fieldG op).toNat = 15) : decodeGroupF op = .unknown op := by
    unfold decodeGroupF
    rw [if_neg (hK 15 0 7 0x07 (by decide) rfl hg), if_neg (hK 15 0 10 0x0A (by decide) rfl hg), if_neg (hK 15 1 5 0x15 (by decide) rfl hg),
      if_neg (hK 15 1 8 0x18 (by decide) rfl hg), if_neg (hK 15 1 14 0x1E (by decide) rfl hg), if_neg (hK 15 2 9 0x29 (by decide) rfl hg),
      if_neg (hK 15 3 3 0x33 (by decide) rfl hg), if_neg (hK 15 5 5 0x55 (by decide) rfl hg), if_neg (hK 15 6 5 0x65 (by decide) rfl hg)]
  unfold decode
  split
  · rw [decodeGroup0, if_neg (hW 0x00E0 (by decide)), if_neg (hW 0x00EE (by decide))]
  · exact (hG 1 (by decide) ‹_›).elim
  · exact (hG 2 (by decide) ‹_›).elim
  · exact (hG 3 (by decide) ‹_›).elim
  · exact (hG 4 (by decide) ‹_›).elim
  · exact if_neg (hN 5 0 (by decide) ‹_›)
  · exact (hG 6 (by decide) ‹_›).elim
  · exact (hG 7 (by decide) ‹_›).elim
  · exact h8 ‹_›
  · exact if_neg (hN 9 0 (by decide) ‹_›)
  · exact (hG 10 (by decide) ‹_›).elim
  · exact (hG 11 (by decide) ‹_›).elim
  · exact (hG 12 (by decide) ‹_›).elim
  · exact (hG 13 (by decide) ‹_›).elim
  · rw [decodeGroupE, if_neg (hK 14 9 14 0x9E (by decide) rfl ‹_›), if_neg (hK 14 10 1 0xA1 (by decide) rfl ‹_›)]
  · have := (fieldG op).isLt
    exact hF (by simp only [imp_false] at *; omega)

theorem unknown (op : Word) : Statement (.unknown op) := fun h =>
  decode_unnamed op (by simpa only [Instr.wellFormed, Bool.not_eq_true'] using h)

theorem cls : Statement (.cls) := fun _ => by
  rfl

theorem ret : Statement (.ret) := fun _ => by
  rfl

theorem jp (nnn : Addr) : Statement (.jp nnn) := fun _ => by
  simp [encode, decode]

theorem call (nnn : Addr) : Statement (.call nnn) := fun _ => by
  simp [encode, decode]

theorem seImm (x : Reg) (kk : Byte) : Statement (.seImm x kk) := fun _ => by
  simp [encode, decode]

theorem sneImm (x : Reg) (kk : Byte) : Statement (.sneImm x kk) := fun _ => by
  simp [encode, decode]

theorem seReg (x : Reg) (y : Reg) : Statement (.seReg x y) := fun _ => by
  simp [encode, decode]

theorem ldImm (x : Reg) (kk : Byte) : Statement (.ldImm x kk) := fun _ => by
  simp [encode, decode]

theorem addImm (x : Reg) (kk : Byte) : Statement (.addImm x kk) := fun _ => by
  simp [encode, decode]

theorem ldReg (x : Reg) (y : Reg) : Statement (.ldReg x y) := fun _ => by
  simp [encode, decode, decodeGroup8]

theorem or (x : Reg) (y : Reg) : Statement (.or x y) := fun _ => by
  simp [encode, decode, decodeGroup8]

theorem and (x : Reg) (y : Reg) : Statement (.and x y) := fun _ => by
  simp [encode, decode, decodeGroup8]

theorem xor (x : Reg) (y : Reg) : Statement (.xor x y) := fun _ => by
  simp [encode, decode, decodeGroup8]

theorem addReg (x : Reg) (y : Reg) : Statement (.addReg x y) := fun _ => by
  simp [encode, decode, decodeGroup8]

theorem sub (x : Reg) (y : Reg) : Statement (.sub x y) := fun _ => by
  simp [encode, decode, decodeGroup8]

theorem shr (x : Reg) (y : Reg) : Statement (.shr x y) := fun _ => by
  simp [encode, decode, decodeGroup8]

theorem subn (x : Reg) (y : Reg) : Statement (.subn x y) := fun _ => by
  simp [encode, decode, decodeGroup8]

theorem shl (x : Reg) (y : Reg) : Statement (.shl x y) := fun _ => by
  simp [encode, decode, decodeGroup8]

theorem sneReg (x : Reg) (y : Reg) : Statement (.sneReg x y) := fun _ => by
  simp [encode, decode]

theorem ldI (nnn : Addr) : Statement (.ldI nnn) := fun _ => by
  simp [encode, decode]

theorem jpV0 (nnn : Addr) : Statement (.jpV0 nnn) := fun _ => by
  simp [encode, decode]

theorem rnd (x : Reg) (kk : Byte) : Statement (.rnd x kk) := fun _ => by
  simp [encode, decode]

theorem drw (x : Reg) (y : Reg) (n : Reg) : Statement (.drw x y n) := fun _ => by
  simp [encode, decode]

theorem skp (x : Reg) : Statement (.skp x) := fun _ => by
  simp [encode, decode, decodeGroupE]

theorem sknp (x : Reg) : Statement (.sknp x) := fun _ => by
  simp [encode, decode, decodeGroupE]

theorem ldVxDt (x : Reg) : Statement (.ldVxDt x) := fun _ => by
  simp [encode, decode, decodeGroupF]

theorem ldVxKey (x : Reg) : Statement (.ldVxKey x) := fun _ => by
  simp [encode, decode, decodeGroupF]

theorem ldDtVx (x : Reg) : Statement (.ldDtVx x) := fun _ => by
  simp [encode, decode, decodeGroupF]

theorem ldStVx (x : Reg) : Statement (.ldStVx x) := fun _ => by
  simp [encode, decode, decodeGroupF]

theorem addI (x : Reg) : Statement (.addI x) := fun _ => by
  simp [encode, decode, decodeGroupF]

theorem ldFont (x : Reg) : Statement (.ldFont x) := fun _ => by
  simp [encode, decode, decodeGroupF]

theorem ldBcd (x : Reg) : Statement (.ldBcd x) := fun _ => by
  simp [encode, decode, decodeGroupF]

theorem stRegs (x : Reg) : Statement (.stRegs x) := fun _ => by
  simp [encode, decode, decodeGroupF]

theorem ldRegs (x : Reg) : Statement (.ldRegs x) := fun _ => by
  simp [encode, decode, decodeGroupF]

end Sys2Proof.Laws.EncodeDecode
end

