-- ==== Sys2Proof/Laws/Step.lean ====
section
/-! SUPPORT. What a step can do, said once (R70): the four cases of a cycle. -/

namespace Sys2Proof.Machine

/-- A stopped machine answers a fault (R22). -/
theorem step_stopped {s : State} {r : FaultRecord} (h : s.fault = some r) : step s = .fault (.machineStopped r) := by
  rw [step, h]

/-- A waiting machine does a key-wait cycle (R71). -/
theorem step_waiting {s : State} {d : Reg} (hf : s.fault = none) (hc : s.cpuState = .waitingForKey d) :
    step s = .next (keyWaitCycle d s) := by
  simp only [step, hf, hc]

/-- The cases of a step: stopped, waiting, a fetch that raises, or the execution of the decoded word with PC advanced. -/
theorem step_cases (s : State) :
    (∃ r, s.fault = some r ∧ step s = .fault (.machineStopped r)) ∨
      (∃ d, s.fault = none ∧ s.cpuState = .waitingForKey d ∧ step s = .next (keyWaitCycle d s)) ∨
      (s.fault = none ∧ s.cpuState = .running ∧ 4096 ≤ s.pc.toNat + 1 ∧
        step s = .next (s.raiseFetch (.addressOutOfBounds (max s.pc.toNat 4096)))) ∨
      (s.fault = none ∧ s.cpuState = .running ∧ s.pc.toNat + 1 < 4096 ∧
        step s = exec (decode (s.mem.get s.pc.toNat ++ s.mem.get (s.pc.toNat + 1))) s.advancePc) := by
  cases hf : s.fault with
  | some r => exact .inl ⟨r, rfl, step_stopped hf⟩
  | none =>
    cases hc : s.cpuState with
    | waitingForKey d => exact .inr (.inl ⟨d, rfl, rfl, step_waiting hf hc⟩)
    | running =>
      rcases fetch_cases s with ⟨h, hr⟩ | ⟨h, hr⟩
      · exact .inr (.inr (.inr ⟨rfl, rfl, h, by simp only [step, hf, hc, hr]⟩))
      · exact .inr (.inr (.inl ⟨rfl, rfl, h, by simp only [step, hf, hc, hr]⟩))

/-! ## Runs of steps, as the host's interface counts them -/

theorem run_zero (s : State) : Host.Core.run core 0 s = .next s := rfl

theorem run_succ_of_next {s t : State} (k : Nat) (h : step s = .next t) :
    Host.Core.run core (k + 1) s = Host.Core.run core k t := by
  have general (M : Host.Core) (s t : M.State) (h : M.step s = .next t) : M.run (k + 1) s = M.run k t := by
    rw [Host.Core.run, h]
  exact general core s t h

theorem run_succ_of_fault {s : State} {r : Fault} (k : Nat) (h : step s = .fault r) :
    Host.Core.run core (k + 1) s = .fault r := by
  have general (M : Host.Core) (s : M.State) (r : M.Fault) (h : M.step s = .fault r) : M.run (k + 1) s = .fault r := by
    rw [Host.Core.run, h]
  exact general core s r h

end Sys2Proof.Machine
end

