-- ==== Sys2Proof/Tests/Slice0.lean ====
section
/-! SUPPORT. Tests: the WellFormed smoke test, words written out from the spec's encodings, vectors of spec/95_test_vectors.md (named beside each), and for each obligation with hypotheses a state that meets them. -/

set_option Elab.async false

namespace Sys2Proof.Tests
open Sys2Proof.Machine

/-! ## Helpers -/

/-- The outcome is a next state that passes the check. -/
def okNext (r : Result) (p : State → Bool) : Bool :=
  match r with
  | .next t => p t
  | .fault _ => false
  | .refused _ => false

/-- One step with the word at PC passes the check. -/
def run (op : Word) (s : State) (p : State → Bool) : Bool := okNext (step (s.placeWord op)) p

/-- The reset state with V0 and V1 set. -/
def v01 (a b : Byte) : State := (State.reset.setV 0 a).setV 1 b

/-- V0, V1 and VF of a state. -/
def v01F (s : State) : Byte × Byte × Byte := (s.v 0, s.v 1, s.v vF)

/-- The reset state with I set and the bytes stored at it. -/
def atI (i : Word) (bytes : List Byte) : State :=
  (State.reset.setIndex i).setMem (Memory.setSpan [] i.toNat bytes)

/-- The lit pixels of a framebuffer are exactly those listed, as (row, column): each is lit, and as many are lit. -/
def litExactly (fb : Framebuffer) (ps : List (Nat × Nat)) : Bool :=
  ps.all (fun p => fb.pixel (wrapRow p.1) (wrapCol p.2)) &&
    ((fb.toList.map fun r => r.toList.count true).sum == ps.length)

/-- The record of an error raised by the instruction at 200. -/
def at200 (e : RunError) (op : Word) : Option FaultRecord := some { error := e, address := 0x200, word := some op }

/-! ## WellFormed: a term that each check refuses -/

theorem test_unknown_of_a_named_word_is_ill_formed :
    (Instr.unknown 0x00E0).wellFormed = false ∧ (Instr.unknown 0x1ABC).wellFormed = false ∧
    (Instr.unknown 0x8ABE).wellFormed = false ∧ (Instr.unknown 0xF365).wellFormed = false ∧
    (Instr.unknown 0x8AB8).wellFormed = true := by decide

/-! ## Decoding: words written out bit by bit from the formats of R52 and the rows of R56 -/

theorem test_decode_group_0_and_NNN :
    decodeTableWord 16 0b0000000011100000 = some .cls ∧ decodeTableWord 16 0b0000000011101110 = some .ret ∧
    decodeTableWord 16 0b0000000100100011 = some (.unknown 0x0123) ∧
    decodeTableWord 16 0b0001101010111100 = some (.jp 0xABC) ∧ decodeTableWord 16 0b0010101010111100 = some (.call 0xABC) ∧
    decodeTableWord 16 0b1010000100100011 = some (.ldI 0x123) ∧
    decodeTableWord 16 0b1011000100100011 = some (.jpV0 0x123) := by decide

theorem test_decode_XKK :
    decodeTableWord 16 0b0011101001000010 = some (.seImm 0xA 0x42) ∧
    decodeTableWord 16 0b0100101001000010 = some (.sneImm 0xA 0x42) ∧
    decodeTableWord 16 0b0110101001000010 = some (.ldImm 0xA 0x42) ∧
    decodeTableWord 16 0b0111101001000010 = some (.addImm 0xA 0x42) ∧
    decodeTableWord 16 0b1100001111110000 = some (.rnd 3 0xF0) := by decide

theorem test_decode_XY :
    decodeTableWord 16 0b0101101010110000 = some (.seReg 0xA 0xB) ∧
    decodeTableWord 16 0b1000101010110000 = some (.ldReg 0xA 0xB) ∧ decodeTableWord 16 0b1000101010110001 = some (.or 0xA 0xB) ∧
    decodeTableWord 16 0b1000101010110010 = some (.and 0xA 0xB) ∧ decodeTableWord 16 0b1000101010110011 = some (.xor 0xA 0xB) ∧
    decodeTableWord 16 0b1000101010110100 = some (.addReg 0xA 0xB) ∧ decodeTableWord 16 0b1000101010110101 = some (.sub 0xA 0xB) ∧
    decodeTableWord 16 0b1000101010110110 = some (.shr 0xA 0xB) ∧ decodeTableWord 16 0b1000101010110111 = some (.subn 0xA 0xB) ∧
    decodeTableWord 16 0b1000101010111110 = some (.shl 0xA 0xB) ∧
    decodeTableWord 16 0b1001101010110000 = some (.sneReg 0xA 0xB) := by decide

theorem test_decode_XYN_and_X :
    decodeTableWord 16 0b1101101010110101 = some (.drw 0xA 0xB 5) ∧
    decodeTableWord 16 0b1110000110011110 = some (.skp 1) ∧ decodeTableWord 16 0b1110000110100001 = some (.sknp 1) ∧
    decodeTableWord 16 0b1111001100000111 = some (.ldVxDt 3) ∧ decodeTableWord 16 0b1111001100001010 = some (.ldVxKey 3) ∧
    decodeTableWord 16 0b1111001100010101 = some (.ldDtVx 3) ∧ decodeTableWord 16 0b1111001100011000 = some (.ldStVx 3) ∧
    decodeTableWord 16 0b1111001100011110 = some (.addI 3) ∧ decodeTableWord 16 0b1111001100101001 = some (.ldFont 3) ∧
    decodeTableWord 16 0b1111001100110011 = some (.ldBcd 3) ∧ decodeTableWord 16 0b1111001101010101 = some (.stRegs 3) ∧
    decodeTableWord 16 0b1111001101100101 = some (.ldRegs 3) := by decide

/-- E35 to E40: a looser match would give these a meaning. -/
theorem test_decode_near_misses_are_unknown :
    [0x01E0, 0x00E1, 0x5AB1, 0x8AB8, 0x8ABF, 0x9AB1, 0xE19F, 0xE1A0, 0xF300, 0xF3FF, 0xF375, 0xF330].all
      (fun op => decide (decode op = .unknown op)) = true := by decide

theorem test_decodeBytes_high_byte_first_and_truncated :
    decodeBytes [0x6A, 0x42, 0x99] = .ok (.ldImm 0xA 0x42, [0x99]) ∧ decodeBytes [0x6A] = .error .truncated := ⟨rfl, rfl⟩

/-! ## Arithmetic and logic (A1 to A36) -/

theorem test_A1_load_immediate : run 0x63AB State.reset (fun t => t.v 3 = 0xAB) = true := by decide

theorem test_A3_add_immediate_wraps_without_flag :
    run 0x7303 (State.reset.setV 3 0xFE) (fun t => t.v 3 = 0x01 ∧ t.v vF = 0) = true := by decide

theorem test_A6_copy : run 0x8010 ((v01 0x11 0x22).setV vF 1) (fun t => v01F t = (0x22, 0x22, 1)) = true := by decide

theorem test_A7_or : run 0x8011 ((v01 0xF0 0x0F).setV vF 1) (fun t => v01F t = (0xFF, 0x0F, 1)) = true := by decide

theorem test_A8_and : run 0x8012 ((v01 0xF0 0x3C).setV vF 1) (fun t => v01F t = (0x30, 0x3C, 1)) = true := by decide

theorem test_A9_xor : run 0x8013 ((v01 0xF0 0x3C).setV vF 1) (fun t => v01F t = (0xCC, 0x3C, 1)) = true := by decide

theorem test_A13_add_largest_sum : run 0x8014 (v01 0xFF 0xFF) (fun t => v01F t = (0xFE, 0xFF, 1)) = true := by decide

theorem test_A15_add_into_VF_keeps_the_flag :
    run 0x8F14 ((v01 0 0x20).setV vF 0xF0) (fun t => t.v vF = 1) = true := by decide

theorem test_A17_sub_equal_has_no_borrow : run 0x8015 (v01 5 5) (fun t => v01F t = (0, 5, 1)) = true := by decide

theorem test_A18_sub_borrows : run 0x8015 (v01 5 6) (fun t => v01F t = (0xFF, 6, 0)) = true := by decide

theorem test_A26_shr_ignores_Vy : run 0x8016 (v01 0x05 0xF0) (fun t => v01F t = (0x02, 0xF0, 1)) = true := by decide

theorem test_A30_shr_of_VF_leaves_the_flag : run 0x8F06 (State.reset.setV vF 2) (fun t => t.v vF = 0) = true := by decide

theorem test_A23_subn : run 0x8017 (v01 5 6) (fun t => v01F t = (1, 6, 1)) = true := by decide

theorem test_A24_subn_borrows : run 0x8017 (v01 6 5) (fun t => v01F t = (0xFF, 5, 0)) = true := by decide

theorem test_A31_shl_ignores_Vy : run 0x801E (v01 0x81 0) (fun t => v01F t = (0x02, 0, 1)) = true := by decide

theorem test_A33_shl_of_VF_leaves_the_flag : run 0x8FFE (State.reset.setV vF 0x81) (fun t => t.v vF = 1) = true := by decide

/-- A35: with mask 00 every draw gives 00. -/
theorem test_A35_rnd_mask_zero : ∃ t, exec (.rnd 0 0x00) (v01 0x55 0) = .next t ∧ t.v 0 = 0 :=
  ⟨_, rfl, by simp⟩

/-- A36: with mask FF the result is the free byte. -/
theorem test_A36_rnd_mask_ones : ∃ t, exec (.rnd 0 0xFF) (v01 0x55 0) = .next t ∧ t.v 0 = Config.randomByte 0 := by
  refine ⟨_, rfl, ?_⟩
  have h : ∀ b : Byte, b &&& 0xFF#8 = b := by decide
  simp [h, v01, State.reset]

/-! ## Skips (K1 to K18) -/

theorem test_K1_K2_se_immediate :
    run 0x3A42 (State.reset.setV 0xA 0x42) (fun t => t.pc = 0x204) = true ∧
    run 0x3A42 (State.reset.setV 0xA 0x43) (fun t => t.pc = 0x202) = true := by decide

theorem test_K3_K4_sne_immediate :
    run 0x4A42 (State.reset.setV 0xA 0x42) (fun t => t.pc = 0x202) = true ∧
    run 0x4A42 (State.reset.setV 0xA 0x43) (fun t => t.pc = 0x204) = true := by decide

theorem test_K5_K6_se_register :
    run 0x5010 (v01 7 7) (fun t => t.pc = 0x204) = true ∧ run 0x5010 (v01 7 8) (fun t => t.pc = 0x202) = true := by decide

theorem test_K8_K9_sne_register :
    run 0x9010 (v01 7 7) (fun t => t.pc = 0x202) = true ∧ run 0x9010 (v01 7 8) (fun t => t.pc = 0x204) = true := by decide

theorem test_K12_K13_skp_tests_the_low_nibble :
    run 0xE09E (keyEvent 6 true (v01 0x05 0)).1 (fun t => t.pc = 0x202) = true ∧
    run 0xE09E (keyEvent 5 true (v01 0x15 0)).1 (fun t => t.pc = 0x204) = true := by decide

theorem test_K15_K16_sknp_tests_the_low_nibble :
    run 0xE0A1 (v01 0x05 0) (fun t => t.pc = 0x204) = true ∧
    run 0xE0A1 (keyEvent 5 true (v01 0xF5 0)).1 (fun t => t.pc = 0x202) = true := by decide

theorem test_K18_skip_past_the_end_faults_one_cycle_later :
    run 0x3042 ((v01 0x42 0).setPc 0xFFE) (fun t => t.pc = 0x1002 ∧ t.fault = none ∧
      okNext (step t) (fun u => u.fault = some { error := .addressOutOfBounds 0x1002, address := 0x1002, word := none })) =
      true := by decide

/-! ## Jumps, calls and returns (C1 to C14) -/

theorem test_C1_jump : run 0x1ABC State.reset (fun t => t.pc = 0xABC) = true := by decide

theorem test_C4_jump_to_the_last_byte :
    run 0x1FFF State.reset (fun t => okNext (step t) (fun u => u.pc = 0xFFF ∧
      u.fault = some { error := .addressOutOfBounds 0x1000, address := 0xFFF, word := none })) = true := by decide

theorem test_C7_call_fills_the_last_entry :
    run 0x2ABC { State.reset with pc := 0x300, sp := 15 }
      (fun t => t.stack[15] = 0x302 ∧ t.sp = 16 ∧ t.pc = 0xABC ∧ t.fault = none) = true := by decide

theorem test_C8_seventeenth_call_overflows :
    run 0x2ABC { State.reset with pc := 0x300, sp := 16 } (fun t => t.sp = 16 ∧ t.pc = 0x302 ∧
      t.fault = some { error := .stackOverflow, address := 0x300, word := some 0x2ABC }) = true := by decide

theorem test_C9_return_on_empty_stack_underflows :
    run 0x00EE State.reset (fun t => t.sp = 0 ∧ t.pc = 0x202 ∧ t.fault = at200 .stackUnderflow 0x00EE) = true := by decide

theorem test_C11_return_pops_the_top :
    run 0x00EE { State.reset with sp := 2, stack := (State.reset.stack.set 0 0x206).set 1 0xABC }
      (fun t => t.sp = 1 ∧ t.pc = 0xABC) = true := by decide

theorem test_C13_jump_V0_is_not_reduced : run 0xBFFF (v01 0xFF 0) (fun t => t.pc = 0x10FE) = true := by decide

theorem test_C14_jump_V0_ignores_the_x_nibble :
    run 0xB300 (State.reset.setV 3 0x44) (fun t => t.pc = 0x300) = true := by decide

/-! ## Display (W1 to W16) -/

theorem test_W1_clear :
    run 0x00E0 ((State.reset.setFb ((clearFb.toggle 0 0).toggle 31 63)).setV vF 1)
      (fun t => litExactly t.fb [] ∧ t.v vF = 1) = true := by decide

theorem test_W6_draw_wraps_both_ways :
    run 0xD012 ((atI 0x300 [0xFF, 0x81]).setV 0 62 |>.setV 1 31) (fun t => litExactly t.fb
      [(31, 62), (31, 63), (31, 0), (31, 1), (31, 2), (31, 3), (31, 4), (31, 5), (0, 62), (0, 5)] ∧ t.v vF = 0) = true := by
  decide

theorem test_W8_draw_collides_and_erases :
    run 0xD011 ((atI 0x301 [0x81]).setFb (clearFb.toggle 0 7)) (fun t => litExactly t.fb [(0, 0)] ∧ t.v vF = 1) = true := by
  decide

/-! ## Timers and keys (T1 to T10) -/

theorem test_T1_read_timer : run 0xF307 (State.reset.setDt 0x2A) (fun t => t.v 3 = 0x2A ∧ t.dt = 0x2A) = true := by decide

theorem test_T2_write_delay_timer :
    run 0xF315 ((State.reset.setV 3 0x3C).setDt 5) (fun t => t.dt = 0x3C ∧ t.st = 0) = true := by decide

theorem test_T3_write_sound_timer : run 0xF318 (State.reset.setV 3 2) (fun t => t.st = 2 ∧ t.dt = 0) = true := by decide

theorem test_T6_key_wait_does_not_poll :
    run 0xF30A (keyEvent 7 true State.reset).1
      (fun t => t.cpuState = .waitingForKey 3 ∧ t.pc = 0x202 ∧ t.v 3 = 0) = true := by decide

/-- T9, keys 4, 9 and C held. -/
def waitingWithKeys : State :=
  { State.reset with cpuState := .waitingForKey 3, keys := ((State.reset.keys.set 4 true).set 9 true).set 12 true }

theorem test_T9_wait_captures_the_smallest_key :
    okNext (step waitingWithKeys) (fun t => t.v 3 = 4 ∧ t.cpuState = .running ∧ t.pc = 0x200) = true := by decide

/-! ## Index register and memory (M1 to M17) -/

theorem test_M1_load_I : run 0xA123 (State.reset.setIndex 0xFFFF) (fun t => t.index = 0x123) = true := by decide

theorem test_M2_M3_add_I :
    run 0xF01E ((v01 1 0).setIndex 0x0FFF) (fun t => t.index = 0x1000 ∧ t.v vF = 0 ∧ t.fault = none) = true ∧
    run 0xF01E ((v01 2 0).setIndex 0xFFFF) (fun t => t.index = 1) = true := by decide

theorem test_M5_font_address : run 0xF029 (v01 0x1A 0) (fun t => t.index = 0x082) = true := by decide

theorem test_M6_bcd :
    run 0xF033 ((v01 0xEA 0).setIndex 0x300)
      (fun t => t.mem.getSpan 0x300 3 = [2, 3, 4] ∧ t.index = 0x300 ∧ t.v 0 = 0xEA) = true := by decide

theorem test_M9_bcd_past_the_end_writes_nothing :
    run 0xF033 ((atI 0xFFE [0xAA, 0xBB]).setV 0 0xEA) (fun t => t.mem.getSpan 0xFFE 2 = [0xAA, 0xBB] ∧
      t.fault = at200 (.addressOutOfBounds 0x1000) 0xF033) = true := by decide

theorem test_M10_store_is_inclusive :
    run 0xF255 (((v01 0x11 0x22).setV 2 0x33).setV 3 0x44 |>.setIndex 0x300 |>.setMem (Memory.setSpan [] 0x303 [0x99]))
      (fun t => t.mem.getSpan 0x300 4 = [0x11, 0x22, 0x33, 0x99] ∧ t.index = 0x300) = true := by decide

/-- M12, and M16: the font is writable. -/
theorem test_M12_M16_store_past_the_end_and_into_the_font :
    run 0xF155 ((v01 0x5A 0x6B).setIndex 0xFFF)
      (fun t => t.mem.get 0xFFF = 0 ∧ t.fault = at200 (.addressOutOfBounds 0x1000) 0xF155) = true ∧
    run 0xF055 ((v01 0 0).setIndex 0x050)
      (fun t => t.mem.get 0x050 = 0 ∧ t.mem.get 0x051 = 0x90 ∧ decide t.mem.wf) = true := by decide

theorem test_M13_load_is_inclusive :
    run 0xF265 ((atI 0x300 [0x0A, 0x0B, 0x0C, 0x0D]).setV 3 0x77) (fun t => t.v 0 = 0x0A ∧ t.v 1 = 0x0B ∧ t.v 2 = 0x0C ∧
      t.v 3 = 0x77 ∧ t.index = 0x300) = true := by decide

theorem test_M17_load_past_the_end_writes_nothing :
    run 0xF065 ((v01 0x5A 0).setIndex 0x1000)
      (fun t => t.v 0 = 0x5A ∧ t.fault = at200 (.addressOutOfBounds 0x1000) 0xF065) = true := by decide

/-! ## Unknown words (X1 to X5) -/

theorem test_X1_unknown_under_Fatal :
    run 0x5121 State.reset (fun t => t.pc = 0x202 ∧ t.fault = at200 (.unknownOpcode 0x5121) 0x5121) = true := by decide

theorem test_X5_sys_under_Nop :
    run 0x0123 { State.reset with policy := .nop } (fun t => t.pc = 0x202 ∧ t.fault = none ∧ t.sp = 0) = true := by decide

/-! ## Frames and host operations (H1 to H10) -/

/-- The machine after `load` of a ROM. -/
def loaded (rom : List Byte) : State := (loadRom rom State.reset).1

/-- One frame at `hz` passes the check. -/
def frame (hz : Nat) (s : State) (p : State → HostStatus → Bool) : Bool :=
  match runFrame hz s with
  | .next (t, st) => p t st
  | .fault _ => false
  | .refused _ => false

/-- H3: `6005 F015 6009 F015 1208`, one decrement, from the last value written. -/
theorem test_H3_one_tick_from_the_last_value_written :
    frame 500 (loaded [0x60, 0x05, 0xF0, 0x15, 0x60, 0x09, 0xF0, 0x15, 0x12, 0x08])
      (fun t st => t.dt = 8 ∧ t.pc = 0x208 ∧ st = .ok) = true := by decide

theorem test_H5_fault_ends_the_frame_without_tick :
    frame 500 ((loaded [0x51, 0x21]).setDt 5) (fun t st => t.dt = 5 ∧
      st = .fault { error := .unknownOpcode 0x5121, address := 0x200, word := some 0x5121 } ∧
      frame 500 t (fun u st' => u = t ∧ st' = st)) = true := by decide

theorem test_H6_key_index_16 : keyEvent 16 true State.reset = (State.reset, .invalidKeyIndex) := by decide

/-- H8: a ROM of 3584 bytes is accepted, one of 3585 refused. -/
theorem test_H8_rom_sizes :
    (loadRom (List.replicate 3584 0) State.reset).2 = .ok ∧ (loadRom (List.replicate 3585 0) State.reset).2 = .romTooLarge := by
  have h (n : Nat) : (List.replicate n (0 : Byte)).length = n := List.length_replicate
  constructor
  · rw [loadRom, if_neg (by rw [h]; decide)]
  · rw [loadRom, if_pos (by rw [h]; decide)]

/-- U1 and R192: from reset with nothing loaded the first cycle raises, and the machine is then stopped. -/
theorem test_reset_runs_into_zeros :
    okNext (step State.reset) (fun t => t.fault = at200 (.unknownOpcode 0) 0 ∧ t.pc = 0x202 ∧ !okNext (step t) (fun _ => true)) =
      true := by decide

/-! ## Witnesses: for each obligation with hypotheses, what meets them, clause by clause at a boundary value -/

/-- A state at PC = FFE, the highest a fetch succeeds at, with the word `op` there. -/
def top (op : Word) : State := (State.reset.setPc 0xFFE).placeWord op

/-- The word at PC, as the statements write it. -/
def wordAtPc (s : State) : Word := s.mem.get s.pc.toNat ++ s.mem.get (s.pc.toNat + 1)

theorem witness_EncodeThenDecodeGivesInstruction :
    (Instr.unknown 0x0FFF).wellFormed = true ∧ (Instr.drw 15 15 15).wellFormed = true ∧ Instr.ret.wellFormed = true := by
  decide

/-- The field hypotheses are met for every word by its own fields; each row's own bits meet the row's condition; and 0000
meets the last. -/
theorem witness_DecodeFollowsOpcodeMap :
    (∀ op : Word, ∃ (x y n : Reg) (kk : Byte) (nnn : Addr), x.val = op.toNat / 256 % 16 ∧ y.val = op.toNat / 16 % 16 ∧
      n.val = op.toNat % 16 ∧ kk.toNat = op.toNat % 256 ∧ nnn.toNat = op.toNat % 4096) ∧
    (opcodeMap.all fun r => r.bits &&& r.mask == r.bits) = true ∧ namedWord 0x0000 = false :=
  ⟨fun op => ⟨fieldX op, fieldY op, fieldN op, fieldKK op, fieldNNN op, fieldX_val op, fieldY_val op, fieldN_val op,
    fieldKK_toNat op, fieldNNN_toNat op⟩, by decide, by decide⟩

/-- The last byte, the last word, and the first addresses past each. -/
theorem witness_ReadsNeedNoAlignment_AccessesAreBoundsChecked :
    readByte [] 4095 = .ok 0 ∧ readWord [] 4094 = .ok 0 ∧ readByte [] 4096 = .error (.addressOutOfBounds 4096) ∧
    readWord [] 4095 = .error (.addressOutOfBounds 4096) ∧ writeByte [] 4095 7 = .ok [(4095, 7)] ∧
    readSpan [] 4095 2 = .error (.addressOutOfBounds 4096) ∧ writeSpan [] 4095 [1, 2] = .error (.addressOutOfBounds 4096) :=
  ⟨rfl, rfl, rfl, rfl, rfl, rfl, rfl⟩

theorem witness_CanonicalMemoriesWithSameBytesAreEqual :
    Memory.wf [(0x000, 1), (0xFFF, 2)] ∧ ¬Memory.wf [(0x000, 0)] ∧ ¬Memory.wf [(0x1000, 1)] := by decide

theorem witness_StepRunsTheDecodedInstruction :
    (top 0xDFFF).fetching ∧ (top 0xDFFF).pc.toNat + 1 < 4096 ∧ (Instr.drw 15 15 15).wellFormed = true ∧
    decodeBytes [(top 0xDFFF).mem.get (top 0xDFFF).pc.toNat, (top 0xDFFF).mem.get ((top 0xDFFF).pc.toNat + 1)] =
      .ok (.drw 15 15 15, []) := ⟨by decide, by decide, by decide, rfl⟩

/-- A state that keeps its PC, and one that cannot. -/
theorem witness_PlacedWordRunsNext :
    ((State.reset.setPc 0xFFE).withFetchWord 16 0x1234).pc = 0xFFE ∧
    ((State.reset.setPc 0xFFF).withFetchWord 16 0x1234).pc = 0x200 := by decide

theorem witness_FetchOutOfBoundsRaises :
    (State.reset.setPc 0xFFF).fetching ∧ 4095 ≤ (State.reset.setPc 0xFFF).pc.toNat ∧
    (State.reset.setPc 0x1000).fetching ∧ 4096 ≤ (State.reset.setPc 0x1000).pc.toNat := by decide

/-- No key, and key 4 the smallest of those held. -/
theorem witness_KeyWaitCapturesSmallestHeldKey :
    (State.reset.fault = none ∧ ∀ k : Fin 16, State.reset.keys[k] = false) ∧
    waitingWithKeys.fault = none ∧ waitingWithKeys.cpuState = .waitingForKey 3 ∧ waitingWithKeys.keys[(4 : Fin 16)] = true ∧
    ∀ j : Fin 16, j < 4 → waitingWithKeys.keys[j] = false := by decide

/-- A sound machine, and a stopped one. -/
theorem witness_StepAnswersUnlessStopped :
    State.reset.fault = none ∧ (State.reset.raiseFetch .stackOverflow).fault.isSome = true := by decide

/-- A step that faults in execution, and one that faults at the fetch. -/
theorem witness_FaultingStepHasNoPartialEffect :
    State.reset.fault = none ∧ okNext (step State.reset) (fun t => t.fault.isSome) = true ∧
    (State.reset.setPc 0xFFF).fault = none ∧ okNext (step (State.reset.setPc 0xFFF)) (fun t => t.fault.isSome) = true := by
  decide

/-- Each field is changed by some instruction, so no clause is idle. -/
theorem witness_OnlyTheListedInstructionsWriteEachField :
    okNext (exec (.ldI 1) State.reset) (fun t => t.index != State.reset.index) = true ∧
    okNext (exec (.jp 1) State.reset) (fun t => t.pc != State.reset.pc) = true ∧
    okNext (exec (.call 1) State.reset) (fun t => t.sp != State.reset.sp && t.stack != State.reset.stack) = true ∧
    okNext (exec (.ldDtVx 0) (v01 1 0)) (fun t => t.dt != (v01 1 0).dt) = true ∧
    okNext (exec (.ldStVx 0) (v01 1 0)) (fun t => t.st != (v01 1 0).st) = true ∧
    okNext (exec (.stRegs 0) (v01 1 0)) (fun t => t.mem != (v01 1 0).mem) = true ∧
    okNext (exec (.drw 0 0 1) (State.reset.setIndex 0x050)) (fun t => t.fb.pixel 0 0 != State.reset.fb.pixel 0 0) = true ∧
    okNext (exec (.ldVxKey 0) State.reset) (fun t => t.cpuState != State.reset.cpuState) = true ∧
    okNext (exec .ret State.reset) (fun t => t.fault != State.reset.fault) = true ∧
    okNext (exec (.ldImm 3 1) State.reset) (fun t => t.v 3 != State.reset.v 3) = true := by decide

/-- The draw counter, whose byte no evaluation can see. -/
theorem witness_OnlyTheListedInstructionsWriteEachField_draws :
    ∃ t, exec (.rnd 0 0) State.reset = .next t ∧ t.draws ≠ State.reset.draws := ⟨_, rfl, by decide⟩

/-- A form with a flag and one without, and two states that agree on V3 and V4 and the draws but nowhere else. -/
theorem witness_AluInstructionsUseOnlyTheirRegisters :
    (Instr.sub 3 4).aluForm = some (3, 4, true) ∧ (Instr.rnd 3 0).aluForm = some (3, 3, false) ∧
    State.reset.v 3 = (v01 1 2).v 3 ∧ State.reset.v 4 = (v01 1 2).v 4 ∧ State.reset.draws = (v01 1 2).draws ∧
    okNext (exec (.sub 3 4) State.reset) (fun _ => true) = true ∧ okNext (exec (.sub 3 4) (v01 1 2)) (fun _ => true) = true := by
  decide

/-- Flag instructions with x other than VF and with x = VF, and a mask with a 0 bit. -/
theorem witness_writesRegAndFlag_RndMasksAFreeByte : (0 : Reg) ≠ vF ∧ (15 : Reg) = vF ∧ (0x7F : Byte).getLsbD 7 = false := by
  decide

theorem witness_SeImmSkipsWhenEqual :
    (0x3FFF : Word).toNat / 4096 = 3 ∧ (top 0x3FFF).fetching ∧ (top 0x3FFF).pc.toNat + 1 < 4096 ∧
    wordAtPc (top 0x3FFF) = encode (.seImm 15 0xFF) := by decide

theorem witness_KeySkipsTestTheLowNibble : (15 : Fin 16).val = ((v01 0xFF 0).v 0).toNat % 16 := by decide

theorem witness_JpSetsPc :
    (0x1FFF : Word).toNat / 4096 = 1 ∧ (top 0x1FFE).fetching ∧ (top 0x1FFE).pc.toNat = (0xFFE : Addr).toNat ∧
    (0xFFE : Addr).toNat < 4095 ∧ wordAtPc (top 0x1FFE) = encode (.jp 0xFFE) := by decide

/-- A stack with room for one more, a full stack, an empty one. -/
theorem witness_CallPushesReturnAddress_CallOnFullStackRaises_RetPopsOrUnderflows :
    ({ State.reset with sp := 15 } : State).sp.val < 16 ∧ ({ State.reset with sp := 16 } : State).sp.val = 16 ∧
    ({ State.reset with sp := 16 } : State).sp.val = (15 : Fin 16).val + 1 ∧ State.reset.sp.val = 0 := by decide

theorem witness_RetReturnsToAfterTheCall :
    ({ State.reset with sp := 15 } : State).sp.val < 16 ∧
    ∃ t, exec (.call 0x300) { State.reset with sp := 15 } = .next t ∧ t.sp = t.sp ∧ t.stack = t.stack :=
  ⟨by decide, _, rfl, rfl, rfl⟩

/-- No row with I = FFFF, the last byte of memory, a pixel in the sprite and one outside it, and one byte too far. -/
theorem witness_DrwComposesSpriteByXor_DrwOutOfBoundsDrawsNothing :
    ((0 : Reg).val = 0 ∧ (State.reset.setIndex 0xFFFF).index.toNat = 0xFFFF) ∧
    (State.reset.setIndex 0xFF1).index.toNat + (15 : Reg).val ≤ 4096 ∧
    ((0 : Fin 32).val = ((v01 60 0).v 1).toNat % 32 ∧ (3 : Fin 64).val = (((v01 60 0).v 0).toNat + 7) % 64) ∧
    (∀ row < 1, ∀ col < 8, ¬((1 : Fin 32).val = (0 + row) % 32 ∧ (4 : Fin 64).val = (60 + col) % 64)) ∧
    0 < (15 : Reg).val ∧ 4096 < (State.reset.setIndex 0xFF2).index.toNat + (15 : Reg).val := by decide

/-- Two draws of glyph 0, both of which complete. -/
theorem witness_DrawingTwiceRestoresFramebuffer :
    (0 : Reg) ≠ vF ∧ (1 : Reg) ≠ vF ∧ (State.reset.setIndex 0x050).index.toNat + (5 : Reg).val ≤ 4096 ∧
    okNext (exec (.drw 0 1 5) (State.reset.setIndex 0x050)) (fun t => okNext (exec (.drw 0 1 5) t) (fun _ => true)) = true := by
  decide

/-- The highest I that succeeds and the next one, for each of the three instructions. -/
theorem witness_LdBcdStoresDigits_StRegsStoresV0ToVx_LdRegsLoadsV0ToVx_MemoryInstructionsOutOfBoundsWriteNothing :
    (State.reset.setIndex 0xFFD).index.toNat + 2 < 4096 ∧ 4096 ≤ (State.reset.setIndex 0xFFE).index.toNat + 2 ∧
    (State.reset.setIndex 0xFF0).index.toNat + (15 : Reg).val < 4096 ∧
    4096 ≤ (State.reset.setIndex 0xFF1).index.toNat + (15 : Reg).val ∧ (0 : Reg) ≤ 15 ∧ ¬(15 : Reg) ≤ 0 := by decide

theorem witness_LdRegsUndoesStRegs :
    ((v01 7 8).setIndex 0xFFE).index.toNat + (1 : Reg).val < 4096 ∧
    okNext (exec (.stRegs 1) ((v01 7 8).setIndex 0xFFE))
      (fun t => (t.setDt 9).mem = t.mem ∧ (t.setDt 9).index = 0xFFE) = true := by decide

/-- M15: the last two of sixteen registers stored over the two bytes at PC. -/
theorem witness_StoredBytesAreFetchedNext :
    (State.reset.setIndex 0x1F2).fetching ∧ (State.reset.setIndex 0x1F2).index.toNat + (15 : Reg).val < 4096 ∧
    (14 : Reg).val + 1 = (15 : Reg).val ∧ (15 : Reg) ≤ 15 ∧
    (State.reset.setIndex 0x1F2).pc.toNat = (State.reset.setIndex 0x1F2).index.toNat + (14 : Reg).val := by decide

theorem witness_UnknownWordFollowsPolicy :
    State.reset.policy = .fatal ∧ ({ State.reset with policy := .nop } : State).policy = .nop := by decide

/-- The bytes beside the font, and its last byte. -/
theorem witness_ResetState :
    State.reset.mem.get 0x04F = 0 ∧ State.reset.mem.get 0x0A0 = 0 ∧ (79 < 80 ∧ State.reset.mem.get 0x09F = 0x80) := by decide

theorem witness_LoadResetsOrRefuses_HostMovesAlwaysAnswer :
    (List.replicate 3584 (0 : Byte)).length ≤ 3584 ∧ 3584 < (List.replicate 3585 (0 : Byte)).length := by
  rw [List.length_replicate, List.length_replicate]; decide

theorem witness_KeyEventSetsLevel : 15 < 16 ∧ (keyEvent 16 true State.reset).2 = .invalidKeyIndex := by decide

/-- A frame of eight jumps to self that ends sound, steps that change DT and ST, key events of a good and a bad index, a
snapshot, and a frame that faults in its first cycle and one on a machine already stopped. -/
theorem witness_TimerTickOncePerFrame :
    (State.reset.placeWord 0x1200).fault = none ∧
    okNext (Host.Core.run core (cyclesPerFrame 500) (State.reset.placeWord 0x1200)) (fun t => t.fault = none) = true ∧
    run 0xF015 (v01 1 0) (fun t => t.dt != (v01 1 0).dt) = true ∧
    run 0xF018 (v01 1 0) (fun t => t.st != (v01 1 0).st) = true ∧
    hostMove (.keyEvent 15 true) State.reset = .next (statusReply (keyEvent 15 true State.reset)) ∧
    hostMove (.keyEvent 16 true) State.reset = .next (statusReply (keyEvent 16 true State.reset)) ∧
    hostMove .snapshot State.reset = .next (State.reset, { status := .ok, grid := some State.reset.fb }) ∧
    frame 0 State.reset (fun _ st => st != .ok) = true ∧
    frame 0 (State.reset.raiseFetch .stackOverflow) (fun _ st => st != .ok) = true :=
  ⟨by decide, by decide, by decide, by decide, rfl, rfl, rfl, by decide, by decide⟩

theorem witness_CyclesPerFrameFormula :
    cyclesPerFrame 0 = 1 ∧ cyclesPerFrame 119 = 1 ∧ cyclesPerFrame 60 = 1 ∧ cyclesPerFrame 120 = 2 := by decide

/-- A stopped machine, and the first cycle of a frame raising. -/
theorem witness_FaultEndsTheFrameWithoutTick :
    (State.reset.raiseFetch .stackOverflow).fault.isSome = true ∧ State.reset.fault = none ∧ 0 < max 1 (0 / 60) ∧
    okNext (Host.Core.run core (0 + 1) State.reset) (fun t => t.fault.isSome) = true := by decide

theorem witness_WaitingFrameOnlyTicks :
    (State.reset.setCpuState (.waitingForKey 15)).fault = none ∧
    (State.reset.setCpuState (.waitingForKey 15)).cpuState = .waitingForKey 15 ∧
    ∀ k : Fin 16, (State.reset.setCpuState (.waitingForKey 15)).keys[k] = false := by decide

theorem witness_EndedProgramStaysEnded : (top 0x1FFE).ended := ⟨by decide, rfl, by decide⟩

theorem witness_StepKeepsInvariant : State.reset.inv ∧ okNext (step State.reset) (fun _ => true) = true := by decide

/-- A faulted state reached by one frame from the start. -/
theorem witness_ReachableStatesMeetInvariant :
    Reachable State.reset ∧ ∃ t reply, hostMove (.runFrame 0) State.reset = .next (t, reply) ∧ Reachable t :=
  ⟨.start .fatal, _, _, rfl, .move (.runFrame 0) State.reset _ _ (.start .fatal) rfl⟩

end Sys2Proof.Tests
end

section
/-! PROOFS. The memory (20_memory.md): what each checked access answers in range. -/

namespace Sys2Proof.Machine

/-- A byte write in range succeeds with the plain write (R32, R36). -/
theorem writeByte_ok (m : Memory) (a : Nat) (v : Byte) (h : a < 4096) : writeByte m a v = .ok (m.set a v) := by
  simp [writeByte, h]

/-- Settles O5: the bounds check is the only condition of each accessor, and the bytes of a word read are appended high
byte first. -/
theorem readsNeedNoAlignment : Obligations.ReadsNeedNoAlignment := by
  intro m a v
  refine ⟨fun ha => ?byteRead, fun ha => ?byteWrite, fun ha => ?wordRead⟩
  case byteRead => exact readByte_ok m a ha
  case byteWrite => exact ⟨m.set a v, writeByte_ok m a v ha, by rw [Memory.get_set, if_pos rfl]⟩
  case wordRead =>
    have hw : readWord m a = .ok (m.get a ++ m.get (a + 1)) := readWord_ok m a (by omega)
    exact ⟨_, hw, toNat_append_eq (m.get a) (m.get (a + 1))⟩

end Sys2Proof.Machine
end

section
/-! PROOFS. The conditional skips (42_skip.md): what a skip leaves unchanged, and 3xkk from its word to its whole step. -/

namespace Sys2Proof.Machine

/-! ## A step of a fetching machine (R70, R72, R75) -/

/-- A fetching machine whose word at PC encodes an instruction the decoder gives back executes it with PC advanced. -/
theorem step_of_encoded {s : State} {i : Instr} (hs : s.fetching) (hpc : s.pc.toNat + 1 < 4096)
    (hi : decode (encode i) = i)
    (hword : s.mem.get s.pc.toNat ++ s.mem.get (s.pc.toNat + 1) = encode i) :
    step s = exec i s.advancePc := by
  obtain ⟨hfault, hrun⟩ := hs
  rcases step_cases s with ⟨r, hr, -⟩ | ⟨d, -, hd, -⟩ | ⟨-, -, hout, -⟩ | ⟨-, -, -, hstep⟩
  · cases hfault.symm.trans hr
  · cases hrun.symm.trans hd
  · omega
  · rw [hstep, hword, hi]

/-! ## Skips (R100) -/

theorem State.skipIf_frame (s : State) (c : Bool) : s.skipIf c = { s with pc := (s.skipIf c).pc } := by
  cases c <;> rfl

/-- An instruction whose meaning is `skipIf` skips on the proposition its Boolean test decides. -/
theorem skipsIf_of_exec {i : Instr} {s : State} {b : Bool} {c : Prop} (hexec : exec i s = .next (s.skipIf b))
    (hb : b = true ↔ c) : skipsIf i s c := by
  refine ⟨s.skipIf b, hexec, fun hc => ?taken, fun hc => ?notTaken, s.skipIf_frame b, fun a => ?bytes⟩
  case taken => rw [State.skipIf_pc, if_pos (hb.mpr hc)]
  case notTaken => rw [State.skipIf_pc, if_neg (mt hb.mp hc)]
  case bytes => rw [State.skipIf_mem]

/-- A skip run by a whole step: PC passes the instruction, and on the condition the next one too; only PC changes. -/
theorem step_of_skipsIf {i : Instr} {s : State} {c : Prop} [Decidable c] (hpc : s.pc.toNat + 1 < 4096)
    (hstep : step s = exec i s.advancePc) (hskip : skipsIf i s.advancePc c) :
    ∃ t, step s = .next t ∧ t.pc.toNat = s.pc.toNat + (if c then 4 else 2) ∧ t = { s with pc := t.pc } ∧
      sameBytes s t := by
  obtain ⟨t, hexec, htaken, hnotTaken, hframe, hbytes⟩ := hskip
  refine ⟨t, hstep.trans hexec, ?pc, hframe, hbytes⟩
  rw [State.advancePc_pc] at htaken hnotTaken
  split
  · rw [htaken ‹c›]; bv_omega
  · rw [hnotTaken ‹¬c›]; bv_omega

/-! ## 3xkk (R101) -/

theorem exec_seImm (x : Reg) (kk : Byte) (s : State) : exec (.seImm x kk) s = .next (s.skipIf (s.v x == kk)) := rfl

theorem decode_seImm {op : Word} (h : op.toNat / 4096 = 3) : decode op = .seImm (fieldX op) (fieldKK op) := by
  have hg : (fieldG op).toNat = 3 := by rw [fieldG_toNat, h]
  simp only [decode, hg]

theorem seImm_skipsIf (x : Reg) (kk : Byte) (s : State) : skipsIf (.seImm x kk) s (s.v x = kk) :=
  skipsIf_of_exec (exec_seImm x kk s) beq_iff_eq

/-- Settles O25: the encoding is group 3 of the decoder, and the whole step is the skip of the executed instruction after
the fetch's advance. -/
theorem seImmSkipsWhenEqual : Obligations.SeImmSkipsWhenEqual := by
  refine ⟨fun op h => ?encoding, fun x kk s => ?skip, fun x kk s hs hpc hword => ?wholeStep⟩
  case encoding => exact ⟨fieldX op, fieldKK op, fieldX_val op, fieldKK_toNat op, decode_seImm h⟩
  case skip => simpa only [BitVec.toNat_inj] using seImm_skipsIf x kk s
  case wholeStep =>
    have hstep : step s = exec (.seImm x kk) s.advancePc :=
      step_of_encoded hs hpc (Laws.EncodeDecode.seImm x kk rfl) hword
    exact step_of_skipsIf hpc hstep (seImm_skipsIf x kk s.advancePc)

end Sys2Proof.Machine
end

section
/-! PROOFS. The jumps (43_flow.md): what writing PC leaves unchanged, a fetch past the end of memory, and 1nnn. -/

namespace Sys2Proof.Machine

/-! ## A fetch that raises (R72) -/

/-- A fetching machine whose word at PC reaches past the memory records the error and changes nothing else. -/
theorem step_of_fetch_outOfBounds {s : State} (hs : s.fetching) (hpc : 4096 ≤ s.pc.toNat + 1) :
    step s = .next (s.raiseFetch (.addressOutOfBounds (max s.pc.toNat 4096))) := by
  obtain ⟨hfault, hrun⟩ := hs
  rcases step_cases s with ⟨r, hr, -⟩ | ⟨d, -, hd, -⟩ | ⟨-, -, -, hstep⟩ | ⟨-, -, hin, -⟩
  · cases hfault.symm.trans hr
  · cases hrun.symm.trans hd
  · exact hstep
  · omega

/-! ## Jumps (R110, R112) -/

/-- A jump replaces the PC that the fetch advanced. -/
theorem State.setPc_advancePc (s : State) (w : Word) : s.advancePc.setPc w = s.setPc w := rfl

theorem State.setPc_self (s : State) : s.setPc s.pc = s := rfl

/-- An instruction whose meaning is `setPc` jumps to the number of the word it writes. -/
theorem jumpsTo_of_exec {i : Instr} {s : State} {w : Word} {target : Nat} (hexec : exec i s = .next (s.setPc w))
    (hw : w.toNat = target) : jumpsTo i s target := by
  refine ⟨s.setPc w, hexec, ?pc, rfl, fun a => ?bytes⟩
  case pc => rw [State.setPc_pc, hw]
  case bytes => rw [State.setPc_mem]

/-! ## 1nnn (R110) -/

theorem exec_jp (nnn : Addr) (s : State) : exec (.jp nnn) s = .next (s.setPc (addrWord nnn)) := rfl

theorem decode_jp {op : Word} (h : op.toNat / 4096 = 1) : decode op = .jp (fieldNNN op) := by
  have hg : (fieldG op).toNat = 1 := by rw [fieldG_toNat, h]
  simp only [decode, hg]

/-- The endless loop of R110: a jump to its own address writes back the PC it was fetched from. -/
theorem exec_jp_self {nnn : Addr} {s : State} (hpc : s.pc.toNat = nnn.toNat) :
    exec (.jp nnn) s.advancePc = .next s := by
  have htarget : addrWord nnn = s.pc := BitVec.eq_of_toNat_eq ((addrWord_toNat nnn).trans hpc.symm)
  rw [exec_jp, State.setPc_advancePc, htarget, State.setPc_self]

/-- Settles O28: the encoding is group 1 of the decoder; PC is written once, over the fetch's advance, so a jump to itself
gives the state back; at FFF the word's second byte is past the memory and the fetch raises. -/
theorem jpSetsPc : Obligations.JpSetsPc := by
  refine ⟨fun op h => ?encoding, fun nnn s => ?jump, fun nnn s hs hpc hin hword => ?loop, fun s hs => ?lastByte⟩
  case encoding => exact ⟨fieldNNN op, fieldNNN_toNat op, decode_jp h⟩
  case jump => exact jumpsTo_of_exec (exec_jp nnn s) (addrWord_toNat nnn)
  case loop =>
    have hstep : step s = exec (.jp nnn) s.advancePc :=
      step_of_encoded hs (by omega) (Laws.EncodeDecode.jp nnn rfl) (by rw [hpc, hword])
    rw [hstep, exec_jp_self hpc]
  case lastByte =>
    have hpc : 4096 ≤ (s.setPc (addrWord 0xFFF)).pc.toNat + 1 := by
      rw [State.setPc_pc]; decide
    have hnext := step_of_fetch_outOfBounds (s := s.setPc (addrWord 0xFFF)) hs hpc
    exact ⟨_, _, _, exec_jp 0xFFF s, hnext, rfl, rfl⟩

end Sys2Proof.Machine
end

section
/-! PROOFS. The display (44_draw.md): 00E0 from its word to the state it leaves. -/

/-! ## The one word of 00E0 (R55, R121): no group but group 0 answers `cls` -/

namespace Sys2Proof

theorem decodeGroup0_eq_cls_iff (op : Word) : decodeGroup0 op = .cls ↔ op = 0x00E0 := by
  refine ⟨fun h => ?_, fun h => if_pos h⟩
  by_contra hop
  rw [decodeGroup0, if_neg hop] at h
  split at h <;> cases h

theorem decodeGroup8_ne_cls (op : Word) : decodeGroup8 op ≠ .cls := by
  fun_cases decodeGroup8 op <;> exact Instr.noConfusion

theorem decodeGroupE_ne_cls (op : Word) : decodeGroupE op ≠ .cls := by
  fun_cases decodeGroupE op <;> exact Instr.noConfusion

theorem decodeGroupF_ne_cls (op : Word) : decodeGroupF op ≠ .cls := by
  fun_cases decodeGroupF op <;> exact Instr.noConfusion

/-- A word of group 0 is left to `decodeGroup0`. -/
theorem decode_of_fieldG_zero {op : Word} (h : (fieldG op).toNat = 0) : decode op = decodeGroup0 op := by
  simp only [decode, h]

/-- A word of groups 1 to 15 decodes to some other instruction: branch `h_k` of the decoder is group `k - 1`. -/
theorem decode_ne_cls_of_fieldG {op : Word} (h : (fieldG op).toNat ≠ 0) : decode op ≠ .cls := by
  unfold decode
  split
  case h_1 hg => exact absurd hg h
  case h_6 | h_10 => split <;> exact Instr.noConfusion
  case h_9 => exact decodeGroup8_ne_cls op
  case h_15 => exact decodeGroupE_ne_cls op
  case h_16 => exact decodeGroupF_ne_cls op
  all_goals exact Instr.noConfusion

theorem decode_eq_cls_iff (op : Word) : decode op = .cls ↔ op = 0x00E0 := by
  refine ⟨fun h => ?_, fun h => h ▸ rfl⟩
  have hg : (fieldG op).toNat = 0 := by
    by_contra hg
    exact decode_ne_cls_of_fieldG hg h
  exact (decodeGroup0_eq_cls_iff op).mp ((decode_of_fieldG_zero hg).symm.trans h)

end Sys2Proof

/-! ## The clear (R120, R121) -/

namespace Sys2Proof.Machine

theorem exec_cls (s : State) : exec .cls s = .next (s.setFb clearFb) := rfl

theorem State.setFb_frame (s : State) (fb : Framebuffer) : s.setFb fb = { s with fb := (s.setFb fb).fb } := rfl

/-- Settles O34: group 0 alone decodes to `cls`, on the whole word, and its meaning writes the clear framebuffer and no
other field. -/
theorem clsClearsEveryPixel : Obligations.ClsClearsEveryPixel := by
  refine ⟨decode_eq_cls_iff, fun s => ⟨s.setFb clearFb, exec_cls s, fun r c => ?clear,
    s.v_setFb clearFb, s.setFb_frame clearFb, fun a => ?bytes⟩⟩
  case clear => rw [State.setFb_fb, pixel_clearFb]
  case bytes => rw [State.setFb_mem]

end Sys2Proof.Machine
end

section
/-! PROOFS. The timers (45_key_timer.md, 48_host_frame.md R158): the tick, and what a step can do to DT and ST. -/

namespace Sys2Proof.Machine

/-! ## The tick (R158) -/

/-- Subtraction of naturals is floored at zero, as the tick is. -/
theorem tickByte_toNat (b : Byte) : (tickByte b).toNat = b.toNat - 1 := by
  unfold tickByte
  split <;> bv_omega

theorem timerTick_frame (s : State) :
    timerTick s = { s with dt := (timerTick s).dt, st := (timerTick s).st } := rfl

/-! ## The timers and the instructions (R74, R131, R132) -/

/-- Both timers are as before. -/
abbrev sameTimers (s t : State) : Prop := t.dt = s.dt ∧ t.st = s.st

theorem sameTimers_skipIf (s : State) (c : Bool) : sameTimers s (s.skipIf c) := ⟨s.skipIf_dt c, s.skipIf_st c⟩

/-- An answer that is known to keep the timers is the only answer. -/
theorem sameTimers_of_next {r : Result} {s t u : State} (hu : r = .next u) (ht : r = .next t) (h : sameTimers s u) :
    sameTimers s t := by
  cases hu.symm.trans ht; exact h

theorem storeAtI_timers {i : Instr} {bytes : List Byte} {s t : State} (h : storeAtI i bytes s = .next t) :
    sameTimers s t := by
  rcases storeAtI_cases i bytes s with ⟨-, he⟩ | ⟨-, he⟩ <;> exact sameTimers_of_next he h ⟨rfl, rfl⟩

/-- Fx15 and Fx18 each write their one timer; every other instruction, one that raises included, keeps both. -/
theorem exec_timers {i : Instr} {s t : State} (h : exec i s = .next t) :
    sameTimers s t ∨ (∃ x, i = .ldDtVx x ∧ t = s.setDt (s.v x)) ∨ ∃ x, i = .ldStVx x ∧ t = s.setSt (s.v x) := by
  cases i with
  | ldDtVx x => cases h; exact .inr (.inl ⟨x, rfl, rfl⟩)
  | ldStVx x => cases h; exact .inr (.inr ⟨x, rfl, rfl⟩)
  | seImm | sneImm | seReg | sneReg | skp | sknp => cases h; exact .inl (sameTimers_skipIf s _)
  | unknown op =>
    rcases execUnknown_cases op s with ⟨-, he⟩ | ⟨-, he⟩ <;> exact .inl (sameTimers_of_next he h ⟨rfl, rfl⟩)
  | call nnn =>
    rcases execCall_cases nnn s with ⟨-, he⟩ | ⟨_, -, he⟩ <;> exact .inl (sameTimers_of_next he h ⟨rfl, rfl⟩)
  | ret =>
    rcases execRet_cases s with ⟨-, he⟩ | ⟨_, -, he⟩ <;> exact .inl (sameTimers_of_next he h ⟨rfl, rfl⟩)
  | drw x y n =>
    rcases execDrw_cases x y n s with ⟨-, he⟩ | ⟨-, he⟩ <;> exact .inl (sameTimers_of_next he h ⟨rfl, rfl⟩)
  | ldRegs x =>
    rcases execLdRegs_cases x s with ⟨-, he⟩ | ⟨-, he⟩ <;> exact .inl (sameTimers_of_next he h ⟨rfl, rfl⟩)
  | ldBcd | stRegs => exact .inl (storeAtI_timers h)
  | _ => cases h; exact .inl ⟨rfl, rfl⟩

theorem sameTimers_keyWaitCycle (d : Reg) (s : State) : sameTimers s (keyWaitCycle d s) := by
  unfold keyWaitCycle
  split <;> exact ⟨rfl, rfl⟩

/-- A step keeps both timers, unless the word at PC is Fx15 or Fx18 and it writes that one timer. -/
theorem step_timers {s t : State} (h : step s = .next t) :
    sameTimers s t ∨
      (∃ x, decode (s.mem.get s.pc.toNat ++ s.mem.get (s.pc.toNat + 1)) = .ldDtVx x ∧ t = s.advancePc.setDt (s.v x)) ∨
      ∃ x, decode (s.mem.get s.pc.toNat ++ s.mem.get (s.pc.toNat + 1)) = .ldStVx x ∧ t = s.advancePc.setSt (s.v x) := by
  rcases step_cases s with ⟨r, -, hs⟩ | ⟨d, -, -, hs⟩ | ⟨-, -, -, hs⟩ | ⟨-, -, -, hs⟩
  · cases hs.symm.trans h
  · exact .inl (sameTimers_of_next hs h (sameTimers_keyWaitCycle d s))
  · exact .inl (sameTimers_of_next hs h ⟨rfl, rfl⟩)
  · exact exec_timers (hs.symm.trans h)

/-! ## The timers and the other host operations (R159, R160) -/

theorem sameTimers_keyEvent (k : Nat) (down : Bool) (s : State) : sameTimers s (keyEvent k down s).1 := by
  unfold keyEvent
  split <;> exact ⟨rfl, rfl⟩

theorem hostMove_keyEvent (k : Nat) (down : Bool) (s : State) :
    hostMove (.keyEvent k down) s = .next ((keyEvent k down s).1, { status := (keyEvent k down s).2, grid := none }) := rfl

theorem hostMove_snapshot (s : State) :
    hostMove .snapshot s = .next (s, { status := .ok, grid := some s.fb }) := rfl

end Sys2Proof.Machine
end

section
/-! PROOFS. The host operations (48_host_frame.md): the cycles of a frame as a run of steps, what a frame answers, one tick for
each frame, and the snapshot. -/

namespace Sys2Proof.Machine

/-! ## Runs of steps -/

theorem exists_step_of_run_succ {k : Nat} {s t : State} (h : Host.Core.run core (k + 1) s = .next t) :
    ∃ u, step s = .next u ∧ Host.Core.run core k u = .next t := by
  have general (M : Host.Core) (s t : M.State) (h : M.run (k + 1) s = .next t) :
      ∃ u, M.step s = .next u ∧ M.run k u = .next t := by
    rw [Host.Core.run] at h
    split at h
    case h_1 u hu => exact ⟨u, hu, h⟩
    all_goals cases h
  exact general core s t h

/-- No run of steps leaves the fault latch (R177): a run that ends sound began sound. -/
theorem sound_of_run {k : Nat} {s t : State} (h : Host.Core.run core k s = .next t) (ht : t.sound) : s.sound := by
  cases k with
  | zero => cases h; exact ht
  | succ k =>
    cases hf : s.fault with
    | none => exact hf
    | some r => cases (run_succ_of_fault k (step_stopped hf)).symm.trans h

/-! ## The cycles of a frame (R157) -/

/-- A cycle that raises ends the frame's cycles; any other is followed by the rest of them. -/
theorem runCycles_succ {s u : State} (k : Nat) (h : step s = .next u) :
    runCycles (k + 1) s = if u.fault.isSome then .next u else runCycles k u := by
  rw [runCycles, h]

theorem exists_step_of_runCycles_succ {k : Nat} {s t : State} (h : runCycles (k + 1) s = .next t) :
    ∃ u, step s = .next u := by
  cases hs : step s with
  | next u => exact ⟨u, rfl⟩
  | fault r | refused r => rw [runCycles, hs] at h; cases h

/-- If no cycle raises, the frame runs all its cycles. -/
theorem runCycles_of_run {k : Nat} {s t : State} (h : Host.Core.run core k s = .next t) (ht : t.sound) :
    runCycles k s = .next t := by
  induction k generalizing s with
  | zero => exact h
  | succ k ih =>
    obtain ⟨u, hs, hrun⟩ := exists_step_of_run_succ h
    have hu : u.fault = none := sound_of_run hrun ht
    rw [runCycles_succ k hs, hu]
    exact ih hrun

/-- The cycles of a frame are so many steps and no more than were asked for. -/
theorem exists_run_of_runCycles {k : Nat} {s t : State} (h : runCycles k s = .next t) :
    ∃ j, j ≤ k ∧ Host.Core.run core j s = .next t := by
  induction k generalizing s with
  | zero => exact ⟨0, le_refl 0, h⟩
  | succ k ih =>
    obtain ⟨u, hs⟩ := exists_step_of_runCycles_succ h
    rw [runCycles_succ k hs] at h
    split at h
    · exact ⟨1, by omega, (run_succ_of_next 0 hs).trans h⟩
    · obtain ⟨j, hj, hrun⟩ := ih h
      exact ⟨j + 1, by omega, (run_succ_of_next j hs).trans hrun⟩

/-! ## The frame (R157) -/

theorem endFrame_of_sound {t : State} (h : t.sound) : endFrame t = (timerTick t, .ok) := by
  rw [endFrame, h]

theorem endFrame_of_fault {t : State} {r : FaultRecord} (h : t.fault = some r) : endFrame t = (t, .fault r) := by
  rw [endFrame, h]

theorem runFrame_of_runCycles {hz : Nat} {s t : State} (hs : s.sound) (h : runCycles (cyclesPerFrame hz) s = .next t) :
    runFrame hz s = .next (endFrame t) := by
  simp only [runFrame, hs, h]

/-- A frame that answers was refused by a stopped machine, or ran its cycles and ended. -/
theorem runFrame_cases {hz : Nat} {s : State} {p : State × HostStatus} (h : runFrame hz s = .next p) :
    (∃ r, s.fault = some r ∧ p = (s, .fault r)) ∨
      (s.sound ∧ ∃ t, runCycles (cyclesPerFrame hz) s = .next t ∧ p = endFrame t) := by
  unfold runFrame at h
  split at h
  case h_1 r hr => cases h; exact .inl ⟨r, hr, rfl⟩
  case h_2 hs =>
    split at h
    case h_1 t ht => cases h; exact .inr ⟨hs, t, ht, rfl⟩
    all_goals cases h

/-- The end of a frame that returns a fault leaves the state as its cycles did. -/
theorem eq_of_endFrame_fault {t u : State} {r : FaultRecord} (h : endFrame u = (t, .fault r)) : u = t := by
  cases hu : u.fault with
  | none => cases (endFrame_of_sound hu).symm.trans h
  | some r' => cases (endFrame_of_fault hu).symm.trans h; rfl

/-- A frame that returns a fault leaves what some number of its cycles, perhaps none, left. -/
theorem exists_run_of_runFrame_fault {hz : Nat} {s t : State} {r : FaultRecord}
    (h : runFrame hz s = .next (t, .fault r)) :
    ∃ k, k ≤ cyclesPerFrame hz ∧ Host.Core.run core k s = .next t := by
  rcases runFrame_cases h with ⟨r', -, hp⟩ | ⟨-, u, hu, hp⟩
  · cases hp; exact ⟨0, Nat.zero_le _, run_zero s⟩
  · cases eq_of_endFrame_fault hp.symm; exact exists_run_of_runCycles hu

/-! ## The statements -/

/-- Settles O51: a frame ends with one tick if its cycles leave the machine sound and with none if they do not, and no step,
key event or snapshot ticks. -/
theorem timerTickOncePerFrame : Obligations.TimerTickOncePerFrame := by
  refine ⟨fun s => ?tick, fun hz s t hs hrun ht => ?frame, fun s t h => ?cycle, fun k down s t reply h => ?key,
    fun s t reply h => ?snapshot, fun hz s t r h => exists_run_of_runFrame_fault h⟩
  case tick => exact ⟨tickByte_toNat s.dt, tickByte_toNat s.st, timerTick_frame s⟩
  case frame => rw [runFrame_of_runCycles hs (runCycles_of_run hrun ht), endFrame_of_sound ht]
  case cycle =>
    rcases step_timers h with ⟨hdt, hst⟩ | ⟨x, hx, rfl⟩ | ⟨x, hx, rfl⟩
    · exact ⟨fun hne => absurd hdt hne, fun hne => absurd hst hne⟩
    · exact ⟨fun _ => ⟨x, hx⟩, fun hne => absurd rfl hne⟩
    · exact ⟨fun hne => absurd rfl hne, fun _ => ⟨x, hx⟩⟩
  case key => cases (hostMove_keyEvent k down s).symm.trans h; exact sameTimers_keyEvent k down s
  case snapshot => cases (hostMove_snapshot s).symm.trans h; exact ⟨rfl, rfl⟩

/-- Settles O54: the reply of a snapshot carries the framebuffer itself, whatever the fault latch holds. -/
theorem snapshotReturnsTheGrid : Obligations.SnapshotReturnsTheGrid := fun s =>
  ⟨_, s.fb, hostMove_snapshot s, rfl, rfl, fun _ _ => rfl⟩

end Sys2Proof.Machine
end

section
/-! PROOFS. The encoding (30_encoding.md): decode after encode, encode after decode, and the decoder as the opcode map. -/

namespace Sys2Proof

/-! ## Decode after encode (R57) -/

/-- The instruction-by-instruction laws, put together. -/
theorem decode_encode {i : Instr} (hi : i.wellFormed = true) : decode (encode i) = i := by
  cases i with
  | unknown op => exact Laws.EncodeDecode.unknown op hi
  | cls => exact Laws.EncodeDecode.cls hi
  | ret => exact Laws.EncodeDecode.ret hi
  | jp nnn => exact Laws.EncodeDecode.jp nnn hi
  | call nnn => exact Laws.EncodeDecode.call nnn hi
  | seImm x kk => exact Laws.EncodeDecode.seImm x kk hi
  | sneImm x kk => exact Laws.EncodeDecode.sneImm x kk hi
  | seReg x y => exact Laws.EncodeDecode.seReg x y hi
  | ldImm x kk => exact Laws.EncodeDecode.ldImm x kk hi
  | addImm x kk => exact Laws.EncodeDecode.addImm x kk hi
  | ldReg x y => exact Laws.EncodeDecode.ldReg x y hi
  | or x y => exact Laws.EncodeDecode.or x y hi
  | and x y => exact Laws.EncodeDecode.and x y hi
  | xor x y => exact Laws.EncodeDecode.xor x y hi
  | addReg x y => exact Laws.EncodeDecode.addReg x y hi
  | sub x y => exact Laws.EncodeDecode.sub x y hi
  | shr x y => exact Laws.EncodeDecode.shr x y hi
  | subn x y => exact Laws.EncodeDecode.subn x y hi
  | shl x y => exact Laws.EncodeDecode.shl x y hi
  | sneReg x y => exact Laws.EncodeDecode.sneReg x y hi
  | ldI nnn => exact Laws.EncodeDecode.ldI nnn hi
  | jpV0 nnn => exact Laws.EncodeDecode.jpV0 nnn hi
  | rnd x kk => exact Laws.EncodeDecode.rnd x kk hi
  | drw x y n => exact Laws.EncodeDecode.drw x y n hi
  | skp x => exact Laws.EncodeDecode.skp x hi
  | sknp x => exact Laws.EncodeDecode.sknp x hi
  | ldVxDt x => exact Laws.EncodeDecode.ldVxDt x hi
  | ldVxKey x => exact Laws.EncodeDecode.ldVxKey x hi
  | ldDtVx x => exact Laws.EncodeDecode.ldDtVx x hi
  | ldStVx x => exact Laws.EncodeDecode.ldStVx x hi
  | addI x => exact Laws.EncodeDecode.addI x hi
  | ldFont x => exact Laws.EncodeDecode.ldFont x hi
  | ldBcd x => exact Laws.EncodeDecode.ldBcd x hi
  | stRegs x => exact Laws.EncodeDecode.stRegs x hi
  | ldRegs x => exact Laws.EncodeDecode.ldRegs x hi

/-- Settles O2: the decoder reads the two bytes back as the word, and the word of each constructor as the constructor. -/
theorem encodeThenDecodeGivesInstruction : Obligations.EncodeThenDecodeGivesInstruction := by
  intro i rest hi
  have hword : decode (encode i) = i := decode_encode hi
  exact ⟨hword, by rw [decodeBytes_wordBytes, hword]⟩

/-! ## A word of a row is its fields packed in the row's format (R52, R56) -/

theorem decode_of_encode_eq {op : Word} {i : Instr} (hi : i.wellFormed = true) (hop : encode i = op) :
    decode op = i := hop ▸ decode_encode hi

theorem fieldG_of_mask_F000 {op : Word} {g : Nibble} (h : op &&& 0xF000 = packXYN g 0 0 0) : fieldG op = g :=
  (selects_F000 op g).mp (beq_iff_eq.mpr h)

theorem packNNN_of_mask_F000 {op : Word} {g : Nibble} (h : op &&& 0xF000 = packXYN g 0 0 0) :
    packNNN g (fieldNNN op) = op := by
  rw [← fieldG_of_mask_F000 h, packNNN_fields]

theorem packXKK_of_mask_F000 {op : Word} {g : Nibble} (h : op &&& 0xF000 = packXYN g 0 0 0) :
    packXKK g (fieldX op) (fieldKK op) = op := by
  rw [← fieldG_of_mask_F000 h, packXKK_fields]

theorem packXYN_of_mask_F000 {op : Word} {g : Nibble} (h : op &&& 0xF000 = packXYN g 0 0 0) :
    packXYN g (fieldX op) (fieldY op) (fieldN op) = op := by
  rw [← fieldG_of_mask_F000 h, packXYN_fields]

theorem packXYN_of_mask_F00F {op : Word} {g : Nibble} {n : Reg} (h : op &&& 0xF00F = packXYN g 0 0 n) :
    packXYN g (fieldX op) (fieldY op) n = op := by
  obtain ⟨hg, hn⟩ := (selects_F00F op g n).mp (beq_iff_eq.mpr h)
  rw [← hg, ← hn, packXYN_fields]

theorem packXKK_of_mask_F0FF {op : Word} {g : Nibble} {y n : Reg} (h : op &&& 0xF0FF = packXYN g 0 y n) :
    packXKK g (fieldX op) (BitVec.ofNat 8 (y.val * 16 + n.val)) = op := by
  obtain ⟨hg, hkk⟩ := (selects_F0FF op g y n).mp (beq_iff_eq.mpr h)
  rw [← hg, ← hkk, packXKK_fields]

theorem eq_of_mask_FFFF {op w : Word} (h : op &&& 0xFFFF = w) : w = op := by rw [← h, mask_FFFF]

/-- Settles O4: a word that matches a row is the row's instruction encoded, with the word's own fields, and so decodes to
it; a word that matches no row is `decode_unnamed`. -/
theorem decodeFollowsOpcodeMap : Obligations.DecodeFollowsOpcodeMap := by
  intro op x y n kk nnn hx hy hn hkk hnnn
  obtain rfl : x = fieldX op := Fin.ext (hx.trans (fieldX_val op).symm)
  obtain rfl : y = fieldY op := Fin.ext (hy.trans (fieldY_val op).symm)
  obtain rfl : n = fieldN op := Fin.ext (hn.trans (fieldN_val op).symm)
  obtain rfl : kk = fieldKK op := BitVec.eq_of_toNat_eq (hkk.trans (fieldKK_toNat op).symm)
  obtain rfl : nnn = fieldNNN op := BitVec.eq_of_toNat_eq (hnnn.trans (fieldNNN_toNat op).symm)
  exact
    ⟨fun h => decode_of_encode_eq rfl (eq_of_mask_FFFF h), fun h => decode_of_encode_eq rfl (eq_of_mask_FFFF h),
    fun h => decode_of_encode_eq rfl (packNNN_of_mask_F000 (g := 1) h),
    fun h => decode_of_encode_eq rfl (packNNN_of_mask_F000 (g := 2) h),
    fun h => decode_of_encode_eq rfl (packXKK_of_mask_F000 (g := 3) h),
    fun h => decode_of_encode_eq rfl (packXKK_of_mask_F000 (g := 4) h),
    fun h => decode_of_encode_eq rfl (packXYN_of_mask_F00F (g := 5) (n := 0) h),
    fun h => decode_of_encode_eq rfl (packXKK_of_mask_F000 (g := 6) h),
    fun h => decode_of_encode_eq rfl (packXKK_of_mask_F000 (g := 7) h),
    fun h => decode_of_encode_eq rfl (packXYN_of_mask_F00F (g := 8) (n := 0) h),
    fun h => decode_of_encode_eq rfl (packXYN_of_mask_F00F (g := 8) (n := 1) h),
    fun h => decode_of_encode_eq rfl (packXYN_of_mask_F00F (g := 8) (n := 2) h),
    fun h => decode_of_encode_eq rfl (packXYN_of_mask_F00F (g := 8) (n := 3) h),
    fun h => decode_of_encode_eq rfl (packXYN_of_mask_F00F (g := 8) (n := 4) h),
    fun h => decode_of_encode_eq rfl (packXYN_of_mask_F00F (g := 8) (n := 5) h),
    fun h => decode_of_encode_eq rfl (packXYN_of_mask_F00F (g := 8) (n := 6) h),
    fun h => decode_of_encode_eq rfl (packXYN_of_mask_F00F (g := 8) (n := 7) h),
    fun h => decode_of_encode_eq rfl (packXYN_of_mask_F00F (g := 8) (n := 14) h),
    fun h => decode_of_encode_eq rfl (packXYN_of_mask_F00F (g := 9) (n := 0) h),
    fun h => decode_of_encode_eq rfl (packNNN_of_mask_F000 (g := 10) h),
    fun h => decode_of_encode_eq rfl (packNNN_of_mask_F000 (g := 11) h),
    fun h => decode_of_encode_eq rfl (packXKK_of_mask_F000 (g := 12) h),
    fun h => decode_of_encode_eq rfl (packXYN_of_mask_F000 (g := 13) h),
    fun h => decode_of_encode_eq rfl (packXKK_of_mask_F0FF (g := 14) (y := 9) (n := 14) h),
    fun h => decode_of_encode_eq rfl (packXKK_of_mask_F0FF (g := 14) (y := 10) (n := 1) h),
    fun h => decode_of_encode_eq rfl (packXKK_of_mask_F0FF (g := 15) (y := 0) (n := 7) h),
    fun h => decode_of_encode_eq rfl (packXKK_of_mask_F0FF (g := 15) (y := 0) (n := 10) h),
    fun h => decode_of_encode_eq rfl (packXKK_of_mask_F0FF (g := 15) (y := 1) (n := 5) h),
    fun h => decode_of_encode_eq rfl (packXKK_of_mask_F0FF (g := 15) (y := 1) (n := 8) h),
    fun h => decode_of_encode_eq rfl (packXKK_of_mask_F0FF (g := 15) (y := 1) (n := 14) h),
    fun h => decode_of_encode_eq rfl (packXKK_of_mask_F0FF (g := 15) (y := 2) (n := 9) h),
    fun h => decode_of_encode_eq rfl (packXKK_of_mask_F0FF (g := 15) (y := 3) (n := 3) h),
    fun h => decode_of_encode_eq rfl (packXKK_of_mask_F0FF (g := 15) (y := 5) (n := 5) h),
    fun h => decode_of_encode_eq rfl (packXKK_of_mask_F0FF (g := 15) (y := 6) (n := 5) h),
    Laws.EncodeDecode.decode_unnamed op⟩

/-! ## Encode after decode (R54) -/

theorem packNNN_of_group {op : Word} {g : Nibble} (hg : (fieldG op).toNat = g.toNat) :
    packNNN g (fieldNNN op) = op := by
  rw [← BitVec.eq_of_toNat_eq hg, packNNN_fields]

theorem packXKK_of_group {op : Word} {g : Nibble} {kk : Byte} (hg : (fieldG op).toNat = g.toNat)
    (hkk : fieldKK op = kk) : packXKK g (fieldX op) kk = op := by
  rw [← BitVec.eq_of_toNat_eq hg, ← hkk, packXKK_fields]

theorem packXYN_of_group {op : Word} {g : Nibble} {n : Reg} (hg : (fieldG op).toNat = g.toNat)
    (hn : (fieldN op).val = n.val) : packXYN g (fieldX op) (fieldY op) n = op := by
  rw [← BitVec.eq_of_toNat_eq hg, ← Fin.ext hn, packXYN_fields]

theorem encode_decodeGroup0 (op : Word) : encode (decodeGroup0 op) = op := by
  unfold decodeGroup0
  split
  · exact Eq.symm ‹_›
  · split
    · exact Eq.symm ‹_›
    · rfl

theorem encode_decodeGroup8 {op : Word} (hg : (fieldG op).toNat = 8) : encode (decodeGroup8 op) = op := by
  unfold decodeGroup8
  split
  case h_10 => rfl
  all_goals exact packXYN_of_group hg ‹_›

theorem encode_decodeGroupE {op : Word} (hg : (fieldG op).toNat = 14) : encode (decodeGroupE op) = op := by
  fun_cases decodeGroupE op
  case case3 => rfl
  all_goals exact packXKK_of_group hg ‹fieldKK op = _›

theorem encode_decodeGroupF {op : Word} (hg : (fieldG op).toNat = 15) : encode (decodeGroupF op) = op := by
  fun_cases decodeGroupF op
  case case10 => rfl
  all_goals exact packXKK_of_group hg ‹fieldKK op = _›

/-- No bit of a word is lost in decoding: branch `h_k` of the decoder is group `k - 1`. -/
theorem encode_decode (op : Word) : encode (decode op) = op := by
  unfold decode
  split
  case h_1 => exact encode_decodeGroup0 op
  case h_2 hg | h_3 hg | h_11 hg | h_12 hg => exact packNNN_of_group hg
  case h_4 hg | h_5 hg | h_7 hg | h_8 hg | h_13 hg => exact packXKK_of_group hg rfl
  case h_6 hg | h_10 hg =>
    split
    · exact packXYN_of_group hg (congrArg Fin.val ‹fieldN op = 0›)
    · rfl
  case h_9 hg => exact encode_decodeGroup8 hg
  case h_14 hg => exact packXYN_of_group hg rfl
  case h_15 hg => exact encode_decodeGroupE hg
  case h_16 =>
    have := (fieldG op).isLt
    exact encode_decodeGroupF (by simp only [imp_false] at *; omega)

/-- A word that decodes to `Unknown` of itself is matched by no row: each row has its own variant. -/
theorem namedWord_of_decode_eq_unknown {op : Word} (h : decode op = .unknown op) : namedWord op = false := by
  have hrows := decodeFollowsOpcodeMap op (fieldX op) (fieldY op) (fieldN op) (fieldKK op) (fieldNNN op)
    (fieldX_val op) (fieldY_val op) (fieldN_val op) (fieldKK_toNat op) (fieldNNN_toNat op)
  simp only [h, reduceCtorEq, imp_false, implies_true, and_true] at hrows
  simpa [namedWord, opcodeMap, OpcodeRow.selects] using hrows

theorem wellFormed_decode (op : Word) : (decode op).wellFormed = true := by
  have hword : encode (decode op) = op := encode_decode op
  cases hi : decode op with
  | unknown w =>
    obtain rfl : w = op := by rwa [hi] at hword
    rw [Instr.wellFormed, namedWord_of_decode_eq_unknown hi, Bool.not_false]
  | _ => rfl

/-- Settles O3: `Unknown` is answered only where no row matches, and each branch of the decoder keeps every bit. -/
theorem decodeThenEncodeGivesWord : Obligations.DecodeThenEncodeGivesWord := fun op =>
  ⟨wellFormed_decode op, encode_decode op⟩

/-- Settles O1: each word evaluated by the decoder. -/
theorem decodeOfTableWords : Obligations.DecodeOfTableWords := by
  unfold Obligations.DecodeOfTableWords; decide

end Sys2Proof
end

section
/-! PROOFS. The memory (20_memory.md): the bounds checks of every access (R32), and the canonical form (log 4). -/

namespace Sys2Proof.Machine

/-! ## Accesses out of bounds (R32, R33, R172) -/

theorem writeByte_error (m : Memory) (a : Nat) (v : Byte) (h : 4096 ≤ a) :
    writeByte m a v = .error (.addressOutOfBounds a) := by
  rw [writeByte, if_neg (Nat.not_lt.mpr h)]

theorem readSpan_error (m : Memory) {base n : Nat} (h0 : 0 < n) (h : 4096 < base + n) :
    readSpan m base n = .error (.addressOutOfBounds (max base 4096)) := by
  rcases readSpan_cases m base n with ⟨hin, -⟩ | ⟨-, he⟩
  · omega
  · exact he

theorem writeSpan_error (m : Memory) {base : Nat} {vs : List Byte} (h0 : 0 < vs.length) (h : 4096 < base + vs.length) :
    writeSpan m base vs = .error (.addressOutOfBounds (max base 4096)) := by
  rcases writeSpan_cases m base vs with ⟨rfl | hin, -⟩ | ⟨-, he⟩
  · cases h0
  · omega
  · exact he

/-- Settles O6: one law for each accessor on each side of the bound. -/
theorem accessesAreBoundsChecked : Obligations.AccessesAreBoundsChecked := by
  intro m a v
  refine ⟨fun h => ⟨readByte_error m a h, writeByte_error m a v h⟩, fun h => readWord_error m a (by omega),
    fun h => ⟨m.set a v, writeByte_ok m a v h, ?written, fun c hc => ?others⟩, fun n h0 h => readSpan_error m h0 h,
    fun vs h0 h => writeSpan_error m h0 h⟩
  case written => rw [Memory.get_set, if_pos rfl]
  case others => rw [Memory.get_set, if_neg hc]

/-! ## The canonical form (log 4) -/

/-- In a canonical memory a listed pair is what its address reads as, since no address is listed twice. -/
theorem Memory.get_of_mem {m : Memory} (hm : m.Pairwise fun c d => c.1 < d.1) {c : Host.Cell} (hc : c ∈ m) :
    m.get c.1 = c.2 := by
  induction m with
  | nil => cases hc
  | cons d m ih =>
    obtain ⟨hd, hm⟩ := List.pairwise_cons.mp hm
    rcases List.mem_cons.mp hc with rfl | hc
    · rw [Memory.get, if_pos rfl]
    · rw [Memory.get, if_neg (Nat.ne_of_gt (hd c hc)), ih hm hc]

/-- An address that reads as a byte other than its unlisted one is listed. -/
theorem Memory.mem_of_get_ne {m : Memory} {a : Nat} (h : m.get a ≠ resetByte a) : (a, m.get a) ∈ m := by
  induction m with
  | nil => exact absurd rfl h
  | cons d m ih =>
    rw [Memory.get] at h ⊢
    split at h
    · obtain rfl : a = d.1 := ‹_›
      rw [if_pos rfl]; exact List.mem_cons_self
    · rw [if_neg ‹_›]; exact List.mem_cons_of_mem d (ih h)

/-- A canonical memory lists exactly the addresses of memory that do not read as their unlisted byte. -/
theorem Memory.mem_iff {m : Memory} (hm : m.wf) (c : Host.Cell) :
    c ∈ m ↔ c.1 < 4096 ∧ m.get c.1 = c.2 ∧ c.2 ≠ resetByte c.1 := by
  obtain ⟨hsorted, hlisted⟩ := hm
  constructor
  · intro hc
    obtain ⟨hlt, hne⟩ := hlisted c hc
    exact ⟨hlt, Memory.get_of_mem hsorted hc, hne⟩
  · rintro ⟨-, hget, hne⟩
    rw [← hget] at hne
    have hmem : (c.1, m.get c.1) ∈ m := Memory.mem_of_get_ne hne
    rwa [hget] at hmem

/-- Settles O7: the two memories list the same pairs, both in rising order. -/
theorem canonicalMemoriesWithSameBytesAreEqual : Obligations.CanonicalMemoriesWithSameBytesAreEqual := by
  intro m m' hm hm' hbytes
  have hpairs (c : Host.Cell) : c ∈ m ↔ c ∈ m' := by
    rw [Memory.mem_iff hm, Memory.mem_iff hm']
    exact and_congr_right fun hlt => by rw [hbytes c.1 hlt]
  have hperm : m.Perm m' := (List.perm_ext_iff_of_nodup
    (hm.1.imp fun h he => Nat.ne_of_lt h (congrArg Prod.fst he))
    (hm'.1.imp fun h he => Nat.ne_of_lt h (congrArg Prod.fst he))).mpr hpairs
  exact hperm.eq_of_pairwise (fun c d _ _ hcd hdc => absurd hcd (Nat.lt_asymm hdc)) hm.1 hm'.1

end Sys2Proof.Machine
end

section
/-! PROOFS. Execute (40_cpu_cycle.md R74): an instruction is always answered, it writes what the "written by" column of
10_state.md lists for it, and if it raises it does nothing else. -/

namespace Sys2Proof.Machine

/-! ## Registers a write leaves alone (R11) -/

theorem sameRegsExcept_setV (s : State) (x : Reg) (b : Byte) : sameRegsExcept [x] s (s.setV x b) := fun r hr => by
  rw [State.v_setV, if_neg fun he => hr (List.mem_singleton.mpr he)]

theorem sameRegsExcept_setVFlag (s : State) (x : Reg) (b f : Byte) : sameRegsExcept [x, vF] s (s.setVFlag x b f) :=
  fun r hr => by
    rw [List.mem_pair, not_or] at hr
    rw [State.v_setVFlag, if_neg hr.2, if_neg hr.1]

/-- The registers after a bulk load of V0..Vx from I (R145). -/
theorem v_loadRegs (s : State) (x r : Reg) :
    ({ s with regs := loadRegs s.regs (s.mem.getSpan s.index.toNat (x.val + 1)) } : State).v r =
      if r ≤ x then s.mem.get (s.index.toNat + r.val) else s.v r := by
  have hlen : r.val < (s.mem.getSpan s.index.toNat (x.val + 1)).length ↔ r ≤ x := by
    rw [Memory.getSpan_length, Nat.lt_succ_iff, Fin.le_def]
  rw [State.v_eq, loadRegs_getElem]
  by_cases hr : r ≤ x
  · rw [dif_pos (hlen.mpr hr), if_pos hr, Memory.getSpan_getElem]
  · rw [dif_neg (mt hlen.mp hr), if_neg hr, State.v_eq]

/-! ## What an instruction may write (R74, R114) -/

/-- `t` differs from `s` only in fields that the instruction is listed to write. Each field is unchanged by default. -/
structure WritesListed (i : Instr) (s t : State) : Prop where
  index : t.index ≠ s.index → (∃ nnn, i = .ldI nnn) ∨ (∃ x, i = .addI x) ∨ ∃ x, i = .ldFont x := by
    exact fun h => absurd rfl h
  pc : t.pc ≠ s.pc → i.writesPc = true := by exact fun h => absurd rfl h
  sp : t.sp ≠ s.sp → (∃ nnn, i = .call nnn) ∨ i = .ret := by exact fun h => absurd rfl h
  stack : t.stack ≠ s.stack → ∃ nnn, i = .call nnn := by exact fun h => absurd rfl h
  dt : t.dt ≠ s.dt → ∃ x, i = .ldDtVx x := by exact fun h => absurd rfl h
  st : t.st ≠ s.st → ∃ x, i = .ldStVx x := by exact fun h => absurd rfl h
  mem : t.mem ≠ s.mem → (∃ x, i = .ldBcd x) ∨ ∃ x, i = .stRegs x := by exact fun h => absurd rfl h
  fb : t.fb ≠ s.fb → i = .cls ∨ ∃ x y n, i = .drw x y n := by exact fun h => absurd rfl h
  keys : t.keys = s.keys := by rfl
  policy : t.policy = s.policy := by rfl
  cpuState : t.cpuState ≠ s.cpuState → ∃ x, i = .ldVxKey x := by exact fun h => absurd rfl h
  fault : t.fault ≠ s.fault → (∃ op, i = .unknown op) ∨ i = .ret ∨ (∃ nnn, i = .call nnn) ∨ (∃ x y n, i = .drw x y n) ∨
    (∃ x, i = .ldBcd x) ∨ (∃ x, i = .stRegs x) ∨ ∃ x, i = .ldRegs x := by exact fun h => absurd rfl h
  draws : t.draws ≠ s.draws → ∃ x kk, i = .rnd x kk := by exact fun h => absurd rfl h
  reg : ∀ r : Reg, t.v r ≠ s.v r → i.writesV r = true := by exact fun _ h => absurd rfl h

theorem writesListed_skipIf {i : Instr} (s : State) (c : Bool) (hi : i.writesPc = true) :
    WritesListed i s (s.skipIf c) := by
  cases c
  · exact {}
  · exact { pc := fun _ => hi }

/-- A register that a write changed is one it names. -/
theorem mem_of_v_ne {xs : List Reg} {s t : State} {r : Reg} (h : sameRegsExcept xs s t) (hr : t.v r ≠ s.v r) : r ∈ xs :=
  by_contra fun hx => hr (h r hx)

theorem reg_eq_of_v_setV_ne {s : State} {x r : Reg} {b : Byte} (h : (s.setV x b).v r ≠ s.v r) : r = x :=
  List.mem_singleton.mp (mem_of_v_ne (sameRegsExcept_setV s x b) h)

theorem writesListed_setV {i : Instr} (s : State) {x : Reg} (b : Byte) (hi : i.writesV x = true) :
    WritesListed i s (s.setV x b) where
  reg r h := reg_eq_of_v_setV_ne h ▸ hi

theorem writesListed_setVFlag {i : Instr} (s : State) {x : Reg} (b f : Byte) (hx : i.writesV x = true)
    (hF : i.writesV vF = true) : WritesListed i s (s.setVFlag x b f) where
  reg r h := by
    rcases List.mem_pair.mp (mem_of_v_ne (sameRegsExcept_setVFlag s x b f) h) with rfl | rfl
    · exact hx
    · exact hF

theorem storeAtI_writesListed {i : Instr} {bytes : List Byte} {s t : State} (h : storeAtI i bytes s = .next t)
    (hi : (∃ x, i = .ldBcd x) ∨ ∃ x, i = .stRegs x) : WritesListed i s t := by
  rcases storeAtI_cases i bytes s with ⟨-, he⟩ | ⟨-, he⟩
  · cases he.symm.trans h; exact { mem := fun _ => hi }
  · cases he.symm.trans h; exact { fault := fun _ => by tauto }

/-- Each arm names the fields its instruction writes. -/
theorem exec_writesListed {i : Instr} {s t : State} (h : exec i s = .next t) : WritesListed i s t := by
  cases i with
  | unknown op =>
    rcases execUnknown_cases op s with ⟨-, he⟩ | ⟨-, he⟩ <;> cases he.symm.trans h
    · exact { fault := fun _ => .inl ⟨op, rfl⟩ }
    · exact {}
  | cls => cases h; exact { fb := fun _ => .inl rfl }
  | ret =>
    rcases execRet_cases s with ⟨-, he⟩ | ⟨j, -, he⟩ <;> cases he.symm.trans h
    · exact { fault := fun _ => .inr (.inl rfl) }
    · exact { pc := fun _ => rfl, sp := fun _ => .inr rfl }
  | jp nnn | jpV0 nnn => cases h; exact { pc := fun _ => rfl }
  | call nnn =>
    rcases execCall_cases nnn s with ⟨-, he⟩ | ⟨j, -, he⟩ <;> cases he.symm.trans h
    · exact { fault := fun _ => .inr (.inr (.inl ⟨nnn, rfl⟩)) }
    · exact { pc := fun _ => rfl, sp := fun _ => .inl ⟨nnn, rfl⟩, stack := fun _ => ⟨nnn, rfl⟩ }
  | seImm | sneImm | seReg | sneReg | skp | sknp => cases h; exact writesListed_skipIf s _ rfl
  | ldImm x | addImm x | ldReg x | or x | and x | xor x | ldVxDt x =>
    cases h; exact writesListed_setV s _ (decide_eq_true rfl)
  | addReg x | sub x | shr x | subn x | shl x =>
    cases h; exact writesListed_setVFlag s _ _ (by simp [Instr.writesV]) (by simp [Instr.writesV])
  | rnd x kk =>
    cases h
    exact { draws := fun _ => ⟨x, kk, rfl⟩, reg := fun r hr => decide_eq_true (reg_eq_of_v_setV_ne hr) }
  | drw x y n =>
    rcases execDrw_cases x y n s with ⟨-, he⟩ | ⟨-, he⟩ <;> cases he.symm.trans h
    · exact { fb := fun _ => .inr ⟨x, y, n, rfl⟩, reg := fun r hr => decide_eq_true (reg_eq_of_v_setV_ne hr) }
    · exact { fault := fun _ => .inr (.inr (.inr (.inl ⟨x, y, n, rfl⟩))) }
  | ldVxKey x => cases h; exact { cpuState := fun _ => ⟨x, rfl⟩ }
  | ldDtVx x => cases h; exact { dt := fun _ => ⟨x, rfl⟩ }
  | ldStVx x => cases h; exact { st := fun _ => ⟨x, rfl⟩ }
  | ldI nnn => cases h; exact { index := fun _ => .inl ⟨nnn, rfl⟩ }
  | addI x => cases h; exact { index := fun _ => .inr (.inl ⟨x, rfl⟩) }
  | ldFont x => cases h; exact { index := fun _ => .inr (.inr ⟨x, rfl⟩) }
  | ldBcd x => exact storeAtI_writesListed h (.inl ⟨x, rfl⟩)
  | stRegs x => exact storeAtI_writesListed h (.inr ⟨x, rfl⟩)
  | ldRegs x =>
    rcases execLdRegs_cases x s with ⟨-, he⟩ | ⟨-, he⟩ <;> cases he.symm.trans h
    · exact { reg := fun r hr => decide_eq_true (by_contra fun hx => hr ((v_loadRegs s x r).trans (if_neg hx))) }
    · exact { fault := fun _ => by tauto }

/-! ## Every variant has a rule (R74) -/

theorem storeAtI_answers (i : Instr) (bytes : List Byte) (s : State) : ∃ t, storeAtI i bytes s = .next t := by
  rcases storeAtI_cases i bytes s with ⟨-, he⟩ | ⟨-, he⟩ <;> exact ⟨_, he⟩

theorem exec_answers (i : Instr) (s : State) : ∃ t, exec i s = .next t := by
  cases i with
  | unknown op => rcases execUnknown_cases op s with ⟨-, he⟩ | ⟨-, he⟩ <;> exact ⟨_, he⟩
  | ret => rcases execRet_cases s with ⟨-, he⟩ | ⟨_, -, he⟩ <;> exact ⟨_, he⟩
  | call nnn => rcases execCall_cases nnn s with ⟨-, he⟩ | ⟨_, -, he⟩ <;> exact ⟨_, he⟩
  | drw x y n => rcases execDrw_cases x y n s with ⟨-, he⟩ | ⟨-, he⟩ <;> exact ⟨_, he⟩
  | ldRegs x => rcases execLdRegs_cases x s with ⟨-, he⟩ | ⟨-, he⟩ <;> exact ⟨_, he⟩
  | ldBcd | stRegs => exact storeAtI_answers _ _ s
  | _ => exact ⟨_, rfl⟩

/-- Settles O14: every instruction is answered, and `exec_writesListed` is the table field by field. -/
theorem onlyTheListedInstructionsWriteEachField : Obligations.OnlyTheListedInstructionsWriteEachField := by
  intro i s
  obtain ⟨t, ht⟩ := exec_answers i s
  have h : WritesListed i s t := exec_writesListed ht
  exact ⟨t, ht, h.index, h.pc, h.sp, h.stack, h.dt, h.st, h.mem, h.fb, h.keys, h.policy, h.cpuState, h.fault, h.draws,
    h.reg⟩

/-! ## An instruction that raises (R175, R176) -/

/-- `t` is `s` with nothing done but the latch set by the instruction, or the latch is as it was. -/
abbrev raisesOrKeepsFault (i : Instr) (s t : State) : Prop := (∃ e, t = s.raiseInstr i e) ∨ t.fault = s.fault

theorem storeAtI_fault {i : Instr} {bytes : List Byte} {s t : State} (h : storeAtI i bytes s = .next t) :
    raisesOrKeepsFault i s t := by
  rcases storeAtI_cases i bytes s with ⟨-, he⟩ | ⟨-, he⟩ <;> cases he.symm.trans h
  · exact .inr rfl
  · exact .inl ⟨_, rfl⟩

/-- An instruction that sets the latch has done nothing else; every other keeps the latch. -/
theorem exec_fault {i : Instr} {s t : State} (h : exec i s = .next t) : raisesOrKeepsFault i s t := by
  cases i with
  | unknown op =>
    rcases execUnknown_cases op s with ⟨-, he⟩ | ⟨-, he⟩ <;> cases he.symm.trans h
    exacts [.inl ⟨_, rfl⟩, .inr rfl]
  | ret =>
    rcases execRet_cases s with ⟨-, he⟩ | ⟨_, -, he⟩ <;> cases he.symm.trans h
    exacts [.inl ⟨_, rfl⟩, .inr rfl]
  | call nnn =>
    rcases execCall_cases nnn s with ⟨-, he⟩ | ⟨_, -, he⟩ <;> cases he.symm.trans h
    exacts [.inl ⟨_, rfl⟩, .inr rfl]
  | drw x y n =>
    rcases execDrw_cases x y n s with ⟨-, he⟩ | ⟨-, he⟩ <;> cases he.symm.trans h
    exacts [.inr rfl, .inl ⟨_, rfl⟩]
  | ldRegs x =>
    rcases execLdRegs_cases x s with ⟨-, he⟩ | ⟨-, he⟩ <;> cases he.symm.trans h
    exacts [.inr rfl, .inl ⟨_, rfl⟩]
  | ldBcd | stRegs => exact storeAtI_fault h
  | seImm | sneImm | seReg | sneReg | skp | sknp => cases h; exact .inr (s.skipIf_fault _)
  | _ => cases h; exact .inr rfl

end Sys2Proof.Machine
end

section
/-! PROOFS. The cycle (40_cpu_cycle.md R70 to R75, 60_exceptions.md R171 to R177): the fetch, the key-wait cycle, and what a
cycle that raises leaves. -/

namespace Sys2Proof.Machine

/-! ## The fetching machine (R72, R75) -/

/-- A fetching machine with both bytes at PC in memory executes the word they make, with PC advanced. -/
theorem step_of_fetching {s : State} (hs : s.fetching) (hpc : s.pc.toNat + 1 < 4096) :
    step s = exec (decode (s.mem.get s.pc.toNat ++ s.mem.get (s.pc.toNat + 1))) s.advancePc := by
  obtain ⟨hfault, hrun⟩ := hs
  rcases step_cases s with ⟨r, hr, -⟩ | ⟨d, -, hd, -⟩ | ⟨-, -, hout, -⟩ | ⟨-, -, -, hstep⟩
  · cases hfault.symm.trans hr
  · cases hrun.symm.trans hd
  · omega
  · exact hstep

/-- Settles O8: the two bytes are decoded as the word the fetch reads. -/
theorem stepRunsTheDecodedInstruction : Obligations.StepRunsTheDecodedInstruction := by
  intro s i hs hpc _ hbytes
  have hi : decode (s.mem.get s.pc.toNat ++ s.mem.get (s.pc.toNat + 1)) = i := by
    rw [decodeBytes] at hbytes
    cases hbytes; rfl
  rw [step_of_fetching hs hpc, hi]
  rfl

/-- Settles O10: the fetch of a word that reaches past the memory raises, and the latch is all it writes. -/
theorem fetchOutOfBoundsRaises : Obligations.FetchOutOfBoundsRaises := by
  intro s hs hpc
  have hstep := step_of_fetch_outOfBounds hs (by omega)
  have haddr : max s.pc.toNat 4096 = if 4096 ≤ s.pc.toNat then s.pc.toNat else 4096 := by
    split <;> omega
  exact ⟨_, hstep, rfl, fun a => rfl, by rw [State.raiseFetch_fault, haddr]⟩

/-! ## The model's own loader (log 2) -/

theorem withFetchWord_eq_placeWord (s : State) (op : Word) : s.withFetchWord 16 op.toNat = s.placeWord op := by
  rw [State.withFetchWord, tableWord_toNat]

theorem placeWord_fetching (s : State) (op : Word) : (s.placeWord op).fetching := ⟨rfl, rfl⟩

/-- The word is placed at PC if a fetch succeeds there, else at 0x200. -/
theorem placeWord_pc (s : State) (op : Word) :
    (s.placeWord op).pc = if s.pc.toNat + 1 < 4096 then s.pc else 0x200 := rfl

theorem placeWord_pc_le (s : State) (op : Word) : (s.placeWord op).pc.toNat ≤ 0xFFE := by
  rw [placeWord_pc]
  split
  · omega
  · decide

theorem placeWord_mem (s : State) (op : Word) :
    (s.placeWord op).mem = s.mem.setSpan (s.placeWord op).pc.toNat (wordBytes op) := rfl

/-- The placed word is the word at PC. -/
theorem placeWord_wordAtPc (s : State) (op : Word) :
    (s.placeWord op).mem.get (s.placeWord op).pc.toNat ++ (s.placeWord op).mem.get ((s.placeWord op).pc.toNat + 1) = op := by
  have hbyte (k : Nat) (hk : k < (wordBytes op).length) :
      (s.placeWord op).mem.get ((s.placeWord op).pc.toNat + k) = (wordBytes op)[k] := by
    rw [placeWord_mem, Memory.get_setSpan_inside]
  rw [hbyte 1 Nat.one_lt_two, ← Nat.add_zero (s.placeWord op).pc.toNat, hbyte 0 Nat.zero_lt_two]
  exact wordBytes_append op

/-- Settles O9: the placed word is the one the next fetch reads. -/
theorem placedWordRunsNext : Obligations.PlacedWordRunsNext := by
  intro s op
  rw [withFetchWord_eq_placeWord]
  have hpc : (s.placeWord op).pc.toNat ≤ 0xFFE := placeWord_pc_le s op
  refine ⟨(s.placeWord op).pc, hpc, fun h => ?keepsPc, rfl, ?step⟩
  case keepsPc => rw [placeWord_pc, if_pos (by omega)]
  case step =>
    rw [step_of_fetching (placeWord_fetching s op) (by omega), placeWord_wordAtPc]
    rfl

/-! ## The key-wait cycle (R71) -/

theorem keyWaitCycle_of_none_held {s : State} (d : Reg) (h : ∀ k : Fin 16, s.keys[k] = false) : keyWaitCycle d s = s := by
  rcases lowestHeld_cases s.keys with ⟨-, hk⟩ | ⟨k, -, hheld, -⟩
  · rw [keyWaitCycle, hk]
  · cases (h k).symm.trans hheld

theorem keyWaitCycle_of_smallest_held {s : State} (d : Reg) {k : Fin 16} (hk : s.keys[k] = true)
    (hmin : ∀ j : Fin 16, j < k → s.keys[j] = false) :
    keyWaitCycle d s = (s.setV d (BitVec.ofNat 8 k.val)).setCpuState .running := by
  rcases lowestHeld_cases s.keys with ⟨hnone, -⟩ | ⟨j, hj, hheld, hjmin⟩
  · cases (hnone k).symm.trans hk
  · obtain rfl : j = k := by
      rcases lt_trichotomy j k with hlt | heq | hgt
      · cases (hmin j hlt).symm.trans hheld
      · exact heq
      · cases (hjmin k hgt).symm.trans hk
    rw [keyWaitCycle, hj]

theorem keyWaitCycle_cases (d : Reg) (s : State) :
    keyWaitCycle d s = s ∨ ∃ b, keyWaitCycle d s = (s.setV d b).setCpuState .running := by
  rcases lowestHeld_cases s.keys with ⟨hnone, -⟩ | ⟨k, -, hheld, hmin⟩
  · exact .inl (keyWaitCycle_of_none_held d hnone)
  · exact .inr ⟨_, keyWaitCycle_of_smallest_held d hheld hmin⟩

/-- Settles O11: a waiting machine's step is the key-wait cycle, in its two cases. -/
theorem keyWaitCapturesSmallestHeldKey : Obligations.KeyWaitCapturesSmallestHeldKey := by
  intro s d hfault hwait
  have hstep : step s = .next (keyWaitCycle d s) := step_waiting hfault hwait
  refine ⟨fun hnone => ?noKey, fun k hk hmin => ?captured⟩
  case noKey => rw [hstep, keyWaitCycle_of_none_held d hnone]
  case captured =>
    rw [keyWaitCycle_of_smallest_held d hk hmin] at hstep
    refine ⟨_, hstep, ?value, fun r hr => ?others, rfl, fun a => rfl⟩
    case value =>
      rw [State.v_setCpuState, State.v_setV, if_pos rfl, BitVec.toNat_ofNat]
      omega
    case others => exact sameRegsExcept_setV s d _ r hr

/-! ## A step is answered (R70, R177) -/

theorem step_answers {s : State} (hs : s.sound) : ∃ t, step s = .next t := by
  rcases step_cases s with ⟨r, hr, -⟩ | ⟨d, -, -, hstep⟩ | ⟨-, -, -, hstep⟩ | ⟨-, -, -, hstep⟩
  · cases hs.symm.trans hr
  · exact ⟨_, hstep⟩
  · exact ⟨_, hstep⟩
  · rw [hstep]; exact exec_answers _ _

/-- Settles O12: only a set latch stops a cycle, since every instruction is answered. -/
theorem stepAnswersUnlessStopped : Obligations.StepAnswersUnlessStopped :=
  ⟨fun _ _ hr => step_stopped hr, fun _ hs => step_answers hs⟩

/-! ## A step that raises (R171, R175, R176) -/

/-- What a step that ends with the latch set has done: the fetch raised, or the fetched word's instruction did. -/
theorem step_fault {s t : State} {r : FaultRecord} (hs : s.sound) (h : step s = .next t) (ht : t.fault = some r) :
    (4096 ≤ s.pc.toNat + 1 ∧ ∃ e, t = s.raiseFetch e) ∨
      (s.pc.toNat + 1 < 4096 ∧ ∃ e, t = s.advancePc.raiseInstr
        (decode (s.mem.get s.pc.toNat ++ s.mem.get (s.pc.toNat + 1))) e) := by
  have hset : t.fault ≠ s.fault := by rw [ht, hs]; exact Option.some_ne_none r
  rcases step_cases s with ⟨r', hr', -⟩ | ⟨d, -, -, hstep⟩ | ⟨-, -, hpc, hstep⟩ | ⟨-, -, hpc, hstep⟩
  · cases hs.symm.trans hr'
  · cases hstep.symm.trans h
    rcases keyWaitCycle_cases d s with hk | ⟨b, hk⟩ <;> exact absurd (congrArg State.fault hk) hset
  · cases hstep.symm.trans h
    exact .inl ⟨hpc, _, rfl⟩
  · rcases exec_fault (hstep.symm.trans h) with hraise | hkeep
    · exact .inr ⟨hpc, hraise⟩
    · exact absurd hkeep hset

/-- Settles O13: the step did nothing but raise; no bit of the fetched word is lost in the record, since encoding undoes
decoding, and PC - 2 is where the fetch began. -/
theorem faultingStepHasNoPartialEffect : Obligations.FaultingStepHasNoPartialEffect := by
  intro s t r hs h ht
  rcases step_fault hs h ht with ⟨hpc, e, rfl⟩ | ⟨hpc, e, rfl⟩
  · cases ht
    exact ⟨rfl, fun a => rfl, .inl ⟨rfl, by omega, rfl⟩⟩
  · cases ht
    exact ⟨BitVec.add_sub_cancel s.pc 2, fun a => rfl, .inr ⟨by omega, congrArg some (encode_decode _), rfl⟩⟩

end Sys2Proof.Machine
end

section
/-! PROOFS. The invariant of R16 and every single step: which instructions write memory, the stack and PC is
`exec_writesListed`; each of those keeps its part. -/

namespace Sys2Proof.Machine

/-- Settles O58: the construction state's three parts, evaluated. -/
theorem resetMeetsInvariant : Obligations.ResetMeetsInvariant := by
  unfold Obligations.ResetMeetsInvariant; decide

/-! ## Memory stays canonical -/

theorem storeAtI_wf {i : Instr} {bytes : List Byte} {s t : State} (hm : s.mem.wf) (h : storeAtI i bytes s = .next t) :
    t.mem.wf := by
  rcases storeAtI_cases i bytes s with ⟨hin, he⟩ | ⟨-, he⟩ <;> cases he.symm.trans h
  · rcases hin with rfl | hin
    · exact hm
    · exact Memory.wf_setSpan hm hin
  · exact hm

theorem exec_wf {i : Instr} {s t : State} (hm : s.mem.wf) (h : exec i s = .next t) : t.mem.wf := by
  by_cases hsame : t.mem = s.mem
  · rwa [hsame]
  · rcases (exec_writesListed h).mem hsame with ⟨x, rfl⟩ | ⟨x, rfl⟩ <;> exact storeAtI_wf hm h

/-! ## Stacked addresses stay at most 0x1000 -/

/-- No stacked address passes 0x1000. -/
abbrev State.stackBounded (s : State) : Prop := ∀ j : Fin 16, s.stack[j].toNat ≤ 0x1000

/-- A push stores the PC that a fetch below 4095 has advanced. -/
theorem exec_stackBounded {i : Instr} {s t : State} (hpc : s.pc.toNat ≤ 0x1000) (hst : s.stackBounded)
    (h : exec i s = .next t) : t.stackBounded := by
  by_cases hsame : t.stack = s.stack
  · rwa [State.stackBounded, hsame]
  · obtain ⟨nnn, rfl⟩ := (exec_writesListed h).stack hsame
    rcases execCall_cases nnn s with ⟨-, he⟩ | ⟨j, -, he⟩ <;> cases he.symm.trans h
    · exact hst
    · intro k
      simp only [Fin.getElem_fin, Vector.getElem_set]
      split
      · exact hpc
      · exact hst k

/-! ## PC stays at most 0x10FE -/

theorem skipIf_pc_le {s : State} (hpc : s.pc.toNat ≤ 0x1000) (c : Bool) : (s.skipIf c).pc.toNat ≤ 0x10FE := by
  rw [State.skipIf_pc]
  split <;> bv_omega

/-- A skip adds 2, a jump and a call go to a 12-bit address, Bnnn adds a byte to one, and a return goes to a stacked
address. -/
theorem exec_pc_le {i : Instr} {s t : State} (hpc : s.pc.toNat ≤ 0x1000) (hst : s.stackBounded)
    (h : exec i s = .next t) : t.pc.toNat ≤ 0x10FE := by
  by_cases hsame : t.pc = s.pc
  · rw [hsame]; omega
  · have hi : i.writesPc = true := (exec_writesListed h).pc hsame
    cases i with
    | jp nnn => cases h; rw [State.setPc_pc, addrWord_toNat]; omega
    | jpV0 nnn => cases h; rw [State.setPc_pc, jumpV0Target_toNat]; omega
    | seImm | sneImm | seReg | sneReg | skp | sknp => cases h; exact skipIf_pc_le hpc _
    | call nnn =>
      rcases execCall_cases nnn s with ⟨-, he⟩ | ⟨j, -, he⟩ <;> cases he.symm.trans h
      · exact absurd rfl hsame
      · show (addrWord nnn).toNat ≤ 0x10FE
        rw [addrWord_toNat]; omega
    | ret =>
      rcases execRet_cases s with ⟨-, he⟩ | ⟨j, -, he⟩ <;> cases he.symm.trans h
      · exact absurd rfl hsame
      · exact le_trans (hst j) (by decide)
    | _ => cases hi

/-! ## The step (R16) -/

theorem exec_inv {i : Instr} {s t : State} (hm : s.mem.wf) (hpc : s.pc.toNat ≤ 0x1000) (hst : s.stackBounded)
    (h : exec i s = .next t) : t.inv :=
  ⟨exec_wf hm h, exec_pc_le hpc hst h, exec_stackBounded hpc hst h⟩

theorem keyWaitCycle_inv (d : Reg) {s : State} (hs : s.inv) : (keyWaitCycle d s).inv := by
  rcases keyWaitCycle_cases d s with hk | ⟨b, hk⟩ <;> rw [hk] <;> exact hs

/-- A fetch that succeeds leaves PC at most 0x1000, whatever it was, so that only one instruction's writes count. -/
theorem step_inv {s t : State} (hs : s.inv) (h : step s = .next t) : t.inv := by
  rcases step_cases s with ⟨r, -, hstep⟩ | ⟨d, -, -, hstep⟩ | ⟨-, -, -, hstep⟩ | ⟨-, -, hpc, hstep⟩
  · cases hstep.symm.trans h
  · cases hstep.symm.trans h; exact keyWaitCycle_inv d hs
  · cases hstep.symm.trans h; exact hs
  · obtain ⟨hm, -, hst⟩ := hs
    have hadv : s.advancePc.pc.toNat ≤ 0x1000 := by rw [State.advancePc_pc]; bv_omega
    exact exec_inv (s := s.advancePc) hm hadv hst (hstep.symm.trans h)

/-- Settles O59: `step_inv` asks nothing of the state but the invariant itself. -/
theorem stepKeepsInvariant : Obligations.StepKeepsInvariant := fun _ _ hs h => step_inv hs h

end Sys2Proof.Machine
end

section
/-! PROOFS. Reset, `load` and `key_event` (70_reset_and_hazards.md, 48_host_frame.md R160). -/

namespace Sys2Proof.Machine

/-! ## Memory that nothing has written (R37, R38) -/

theorem fontTable_length : fontTable.length = 80 := rfl

theorem resetByte_font (k : Nat) : resetByte (0x050 + k) = fontTable.getD k 0 := by
  rw [resetByte, if_neg (by simp only [fontBase]; omega), fontBase, Nat.add_sub_cancel_left]

theorem resetByte_outside_font {a : Nat} (h : a < 0x050 ∨ 0x0A0 ≤ a) : resetByte a = 0 := by
  rcases h with h | h
  · rw [resetByte, if_pos h]
  · obtain ⟨k, rfl⟩ := Nat.exists_eq_add_of_le (le_trans (by decide : 0x050 ≤ 0x0A0) h)
    rw [resetByte_font, List.getD_eq_default _ _ (by rw [fontTable_length]; omega)]

theorem reset_mem_get (a : Nat) : State.reset.mem.get a = resetByte a := Memory.get_nil a

/-- Settles O48: the fields read off, and the two parts of the memory. -/
theorem resetState : Obligations.ResetState := by
  refine ⟨rfl, rfl, fun r c => ?pixels, by decide, by decide, rfl, rfl, by decide, rfl, rfl, rfl, rfl,
    fun a ha => ?zero, fun k _ => ?font⟩
  case pixels => exact pixel_clearFb r c
  case zero => rw [reset_mem_get, resetByte_outside_font ha]
  case font => rw [reset_mem_get, resetByte_font]

/-! ## Load (R190, R191) -/

theorem loadRom_fits {rom : List Byte} (h : rom.length ≤ 3584) (s : State) :
    loadRom rom s =
      ({ State.reset with mem := romMemory rom, policy := s.policy, draws := s.draws }, .ok) := by
  rw [loadRom, if_neg (Nat.not_lt.mpr h)]

theorem loadRom_too_large {rom : List Byte} (h : 3584 < rom.length) (s : State) :
    loadRom rom s = (s, .romTooLarge) := by
  rw [loadRom, if_pos h]

theorem romMemory_get (rom : List Byte) (a : Nat) :
    (romMemory rom).get a =
      if 0x200 ≤ a ∧ a < 0x200 + rom.length then rom.getD (a - 0x200) 0 else resetByte a := by
  rw [romMemory, Memory.get_setSpan, Memory.get_nil]
  by_cases h : 0x200 ≤ a ∧ a < 0x200 + rom.length
  · have hlt : a - 0x200 < rom.length := by omega
    rw [dif_pos ⟨h.1, hlt⟩, if_pos h, List.getD_eq_getElem _ _ hlt]
  · rw [dif_neg (by simp only [Config.progBase]; omega), if_neg h]

theorem romMemory_wf {rom : List Byte} (h : rom.length ≤ 3584) : (romMemory rom).wf :=
  Memory.wf_setSpan Memory.wf_nil (by simp only [Config.progBase, Config.memSize]; omega)

/-- Settles O49: the two branches of `load`; the memory of the first is a run of bytes over the reset memory. -/
theorem loadResetsOrRefuses : Obligations.LoadResetsOrRefuses :=
  ⟨fun rom s h => ⟨_, loadRom_fits h s, romMemory_get rom, romMemory_wf h, rfl⟩,
    fun _ s h => loadRom_too_large h s, rfl⟩

/-! ## Key events (R160) -/

theorem keyEvent_of_key (k : Fin 16) (down : Bool) (s : State) :
    keyEvent k.val down s = ({ s with keys := s.keys.set k down }, .ok) := by
  rw [keyEvent, dif_pos k.isLt]

theorem keyEvent_of_no_key {k : Nat} (h : 15 < k) (down : Bool) (s : State) :
    keyEvent k down s = (s, .invalidKeyIndex) := by
  rw [keyEvent, dif_neg (by omega)]

/-- Settles O50: the key vector is written at the one index, if there is such a key. -/
theorem keyEventSetsLevel : Obligations.KeyEventSetsLevel := by
  refine ⟨fun k down s => ⟨_, keyEvent_of_key k down s, fun j => ?level, rfl, fun a => rfl⟩,
    fun k down s h => keyEvent_of_no_key h down s⟩
  case level => simp only [Fin.getElem_fin, Vector.getElem_set, Fin.val_inj, eq_comm]

end Sys2Proof.Machine
end

section
/-! PROOFS. The frame (48_host_frame.md R156, R157): its cycles always end, a cycle that raises ends them, and a machine
whose step changes nothing only ticks. -/

namespace Sys2Proof.Machine

/-- Settles O52: the floor of `hz / 60`, and 1 where that is 0. -/
theorem cyclesPerFrameFormula : Obligations.CyclesPerFrameFormula := by
  refine ⟨fun hz h => ?below, fun hz h => ?formula, by decide⟩ <;> simp only [cyclesPerFrame, Config.timerHz] <;> omega

/-! ## A frame that faults (R157, R177) -/

theorem runFrame_of_fault {s : State} {r : FaultRecord} (hz : Nat) (h : s.fault = some r) :
    runFrame hz s = .next (s, .fault r) := by
  simp only [runFrame, h]

/-- A run that takes a step began sound. -/
theorem sound_of_run_succ {k : Nat} {s t : State} (h : Host.Core.run core (k + 1) s = .next t) : s.sound := by
  obtain ⟨u, hu, -⟩ := exists_step_of_run_succ h
  cases hf : s.fault with
  | none => exact hf
  | some r => cases (step_stopped hf).symm.trans hu

/-- The cycles of a frame stop at the first that raises, however many were asked for. -/
theorem runCycles_of_run_fault {k n : Nat} {s t : State} {r : FaultRecord} (hk : k < n)
    (h : Host.Core.run core (k + 1) s = .next t) (ht : t.fault = some r) : runCycles n s = .next t := by
  induction n generalizing k s with
  | zero => exact absurd hk (Nat.not_lt_zero k)
  | succ n ih =>
    obtain ⟨u, hu, hrun⟩ := exists_step_of_run_succ h
    rw [runCycles_succ n hu]
    cases k with
    | zero => cases hrun; rw [ht, Option.isSome_some, if_pos rfl]
    | succ k =>
      have hsound : u.fault = none := sound_of_run_succ hrun
      rw [hsound]
      exact ih (Nat.lt_of_succ_lt_succ hk) hrun

/-- Settles O53: a stopped machine is refused before its first cycle; a cycle that raises is the frame's last, and the end
of the frame finds the latch set. -/
theorem faultEndsTheFrameWithoutTick : Obligations.FaultEndsTheFrameWithoutTick := by
  refine ⟨fun hz s r h => runFrame_of_fault hz h, fun hz k s t r hs hk hrun ht => ?_⟩
  rw [runFrame_of_runCycles hs (runCycles_of_run_fault hk hrun ht), endFrame_of_fault ht]

/-! ## Every move is answered (R155) -/

theorem runCycles_answers (k : Nat) {s : State} (hs : s.sound) : ∃ t, runCycles k s = .next t := by
  induction k generalizing s with
  | zero => exact ⟨s, rfl⟩
  | succ k ih =>
    obtain ⟨u, hu⟩ := step_answers hs
    rw [runCycles_succ k hu]
    cases hf : u.fault with
    | some r => exact ⟨u, rfl⟩
    | none => exact ih hf

theorem runFrame_answers (hz : Nat) (s : State) : ∃ p, runFrame hz s = .next p := by
  cases hf : s.fault with
  | some r => exact ⟨_, runFrame_of_fault hz hf⟩
  | none =>
    obtain ⟨t, ht⟩ := runCycles_answers (cyclesPerFrame hz) hf
    exact ⟨_, runFrame_of_runCycles hf ht⟩

theorem hostMove_load (rom : List Byte) (s : State) :
    hostMove (.load rom) s = .next (statusReply (loadRom rom s)) := rfl

theorem hostMove_runFrame {hz : Nat} {s : State} {p : State × HostStatus} (h : runFrame hz s = .next p) :
    hostMove (.runFrame hz) s = .next (statusReply p) := by
  simp only [hostMove, h]

/-- Settles O55: of the host's moves the frame alone could stop, and its cycles are answered; a load that fits leaves
the reset state's latch and run state. -/
theorem hostMovesAlwaysAnswer : Obligations.HostMovesAlwaysAnswer := by
  refine ⟨fun m s => ?answered, fun rom s h => ?load⟩
  case answered =>
    cases m with
    | runFrame hz =>
      obtain ⟨p, hp⟩ := runFrame_answers hz s
      exact ⟨_, _, hostMove_runFrame hp⟩
    | load rom => exact ⟨_, _, hostMove_load rom s⟩
    | keyEvent k down => exact ⟨_, _, hostMove_keyEvent k down s⟩
    | snapshot => exact ⟨_, _, hostMove_snapshot s⟩
  case load => exact ⟨_, (hostMove_load rom s).trans (by rw [loadRom_fits h s, statusReply]), rfl, rfl⟩

/-! ## A machine whose step changes nothing (R135, R199) -/

theorem runCycles_of_step_self {s : State} (hs : s.sound) (h : step s = .next s) (k : Nat) :
    runCycles k s = .next s := by
  induction k with
  | zero => rfl
  | succ k ih => rw [runCycles_succ k h, hs]; exact ih

theorem runFrame_of_step_self {s : State} (hs : s.sound) (h : step s = .next s) (hz : Nat) :
    runFrame hz s = .next (timerTick s, .ok) := by
  rw [runFrame_of_runCycles hs (runCycles_of_step_self hs h _), endFrame_of_sound hs]

/-- Settles O56: a key-wait cycle with no key held changes nothing. -/
theorem waitingFrameOnlyTicks : Obligations.WaitingFrameOnlyTicks := by
  intro hz s d hs hwait hnone
  have hstep : step s = .next s := by rw [step_waiting hs hwait, keyWaitCycle_of_none_held d hnone]
  exact runFrame_of_step_self hs hstep hz

/-- A word read that succeeds is the two bytes, both in memory (R32, R34). -/
theorem readWord_eq_ok {m : Memory} {a : Nat} {w : Word} (h : readWord m a = .ok w) :
    a + 1 < 4096 ∧ m.get a ++ m.get (a + 1) = w := by
  rcases readWord_cases m a with ⟨ha, hr⟩ | ⟨-, hr⟩
  · cases hr.symm.trans h; exact ⟨ha, rfl⟩
  · cases hr.symm.trans h

theorem step_of_ended {s : State} (h : s.ended) : step s = .next s := by
  obtain ⟨hfetch, hread, -⟩ := h
  obtain ⟨hpc, hword⟩ := readWord_eq_ok hread
  have hop : (0x1000 + s.pc).toNat = 4096 + s.pc.toNat := by bv_omega
  have hnnn : s.pc.toNat = (fieldNNN (0x1000 + s.pc)).toNat := by rw [fieldNNN_toNat, hop]; omega
  rw [step_of_fetching hfetch hpc, hword, decode_jp (by omega), exec_jp_self hnnn]

/-- Settles O57: the jump writes back the PC it was fetched from, and the tick touches no field that `ended` reads. -/
theorem endedProgramStaysEnded : Obligations.EndedProgramStaysEnded := by
  intro s h
  have hstep : step s = .next s := step_of_ended h
  obtain ⟨⟨hsound, hrun⟩, hword⟩ := h
  exact ⟨hstep, fun hz => ⟨runFrame_of_step_self hsound hstep hz, ⟨hsound, hrun⟩, hword⟩⟩

end Sys2Proof.Machine
end

section
/-! PROOFS. The invariant of R16 and the host's moves (R161): from single steps to everything a host can reach. -/

namespace Sys2Proof.Machine

theorem run_inv {k : Nat} {s t : State} (hs : s.inv) (h : Host.Core.run core k s = .next t) : t.inv := by
  induction k generalizing s with
  | zero => cases h; exact hs
  | succ k ih =>
    obtain ⟨u, hu, hrun⟩ := exists_step_of_run_succ h
    exact ih (step_inv hs hu) hrun

/-- The end of a frame writes at most the timers. -/
theorem endFrame_inv {s : State} (hs : s.inv) : (endFrame s).1.inv := by
  unfold endFrame
  split <;> exact hs

theorem runFrame_inv {hz : Nat} {s : State} {p : State × HostStatus} (hs : s.inv) (h : runFrame hz s = .next p) :
    p.1.inv := by
  rcases runFrame_cases h with ⟨r, -, rfl⟩ | ⟨-, t, ht, rfl⟩
  · exact hs
  · obtain ⟨j, -, hrun⟩ := exists_run_of_runCycles ht
    exact endFrame_inv (run_inv hs hrun)

theorem loadRom_inv {s : State} (hs : s.inv) (rom : List Byte) : (loadRom rom s).1.inv := by
  rcases Nat.lt_or_ge 3584 rom.length with h | h
  · rwa [loadRom_too_large h]
  · rw [loadRom_fits h]
    exact ⟨romMemory_wf h, resetMeetsInvariant.2⟩

theorem keyEvent_inv {s : State} (hs : s.inv) (k : Nat) (down : Bool) : (keyEvent k down s).1.inv := by
  unfold keyEvent
  split <;> exact hs

theorem hostMove_inv {m : HostMove} {s t : State} {reply : HostReply} (hs : s.inv)
    (h : hostMove m s = .next (t, reply)) : t.inv := by
  cases m with
  | load rom => cases (hostMove_load rom s).symm.trans h; exact loadRom_inv hs rom
  | runFrame hz =>
    obtain ⟨p, hp⟩ := runFrame_answers hz s
    cases (hostMove_runFrame hp).symm.trans h
    exact runFrame_inv hs hp
  | keyEvent k down => cases (hostMove_keyEvent k down s).symm.trans h; exact keyEvent_inv hs k down
  | snapshot => cases (hostMove_snapshot s).symm.trans h; exact hs

theorem reachable_inv {s : State} (h : Reachable s) : s.inv := by
  induction h with
  | start p => exact resetMeetsInvariant
  | move m s t reply _ hmove ih => exact hostMove_inv ih hmove

/-- Settles O60: the invariant holds at the start and every host move keeps it; its bound on PC is far below 65536. -/
theorem reachableStatesMeetInvariant : Obligations.ReachableStatesMeetInvariant := by
  intro s h
  obtain ⟨hm, hpc, hst⟩ := reachable_inv h
  exact ⟨⟨hm, hpc, hst⟩, by omega, by bv_omega⟩

end Sys2Proof.Machine
end

section
/-! PROOFS. The arithmetic family (41_alu.md R80 to R93). -/

namespace Sys2Proof.Machine

/-! ## Instructions that write one register, and one register and VF (R13) -/

/-- An instruction whose meaning is `setV` writes the number of its byte. -/
theorem writesReg_of_exec {i : Instr} {s : State} {x : Reg} {b : Byte} {result : Nat}
    (hexec : exec i s = .next (s.setV x b)) (hb : b.toNat = result) : writesReg i s x result := by
  refine ⟨s.setV x b, hexec, ?value, sameRegsExcept_setV s x b, rfl, fun a => rfl⟩
  case value => rw [State.v_setV, if_pos rfl, hb]

/-- An instruction whose meaning is `setVFlag` writes the numbers of its two bytes, the flag last. -/
theorem writesRegAndFlag_of_exec {i : Instr} {s : State} {x : Reg} {b f : Byte} {result flag : Nat}
    (hexec : exec i s = .next (s.setVFlag x b f)) (hb : b.toNat = result) (hf : f.toNat = flag) :
    writesRegAndFlag i s x result flag := by
  refine ⟨s.setVFlag x b f, hexec, fun hx => ?value, ?flag, sameRegsExcept_setVFlag s x b f, rfl, fun a => rfl⟩
  case value => rw [State.v_setVFlag, if_neg hx, if_pos rfl, hb]
  case flag => rw [State.v_setVFlag, if_pos rfl, hf]

/-! ## The instructions one by one -/

/-- Settles O16: the meaning is one register write. -/
theorem ldImmLoadsImmediate : Obligations.LdImmLoadsImmediate := fun _ _ _ => writesReg_of_exec rfl rfl

/-- Settles O17: addition of bytes is modulo 256. -/
theorem addImmWrapsWithoutFlag : Obligations.AddImmWrapsWithoutFlag := fun x kk s =>
  writesReg_of_exec rfl (BitVec.toNat_add (s.v x) kk)

/-- Settles O18: the bitwise operations on bytes are those on their numbers. -/
theorem copyAndLogicLeaveVF : Obligations.CopyAndLogicLeaveVF := fun x y s =>
  ⟨writesReg_of_exec rfl rfl, writesReg_of_exec rfl (BitVec.toNat_or (s.v x) (s.v y)),
    writesReg_of_exec rfl (BitVec.toNat_and (s.v x) (s.v y)), writesReg_of_exec rfl (BitVec.toNat_xor (s.v x) (s.v y))⟩

/-- Settles O19: the sum is modulo 256 and the carry is its bit 8. -/
theorem addRegSetsCarry : Obligations.AddRegSetsCarry := fun x y s =>
  writesRegAndFlag_of_exec rfl (BitVec.toNat_add (s.v x) (s.v y)) (carryFlag_toNat (s.v x) (s.v y))

theorem toNat_sub_byte (a b : Byte) : (a - b).toNat = (a.toNat + 256 - b.toNat) % 256 := by bv_omega

/-- Settles O20: the difference Vx - Vy, and the comparison the other way round. -/
theorem subSetsNotBorrow : Obligations.SubSetsNotBorrow := fun x y s =>
  writesRegAndFlag_of_exec rfl (toNat_sub_byte (s.v x) (s.v y)) (notBorrowFlag_toNat (s.v x) (s.v y))

/-- Settles O21: as O20, with minuend and subtrahend exchanged. -/
theorem subnSetsNotBorrow : Obligations.SubnSetsNotBorrow := fun x y s =>
  writesRegAndFlag_of_exec rfl (toNat_sub_byte (s.v y) (s.v x)) (notBorrowFlag_toNat (s.v y) (s.v x))

theorem toNat_shiftRight_one (a : Byte) : (a >>> 1).toNat = a.toNat / 2 := by
  rw [BitVec.toNat_ushiftRight, Nat.shiftRight_eq_div_pow, Nat.pow_one]

theorem toNat_shiftLeft_one (a : Byte) : (a <<< 1).toNat = a.toNat * 2 % 256 := by
  rw [BitVec.toNat_shiftLeft, Nat.shiftLeft_eq, Nat.pow_one]

/-- Settles O22: a shift right by one halves; V[y] is no argument of the meaning. -/
theorem shrShiftsVxInPlace : Obligations.ShrShiftsVxInPlace := fun x _ s =>
  writesRegAndFlag_of_exec rfl (toNat_shiftRight_one (s.v x)) (shiftedOutRight_toNat (s.v x))

/-- Settles O23: a shift left by one doubles modulo 256. -/
theorem shlShiftsVxInPlace : Obligations.ShlShiftsVxInPlace := fun x _ s =>
  writesRegAndFlag_of_exec rfl (toNat_shiftLeft_one (s.v x)) (shiftedOutLeft_toNat (s.v x))

theorem exec_rnd (x : Reg) (kk : Byte) (s : State) :
    exec (.rnd x kk) s = .next (s.setV x (Config.randomByte s.draws &&& kk)).countDraw := rfl

/-- Settles O24: a bit of the masked byte is the conjunction of the free bit and the mask's. -/
theorem rndMasksAFreeByte : Obligations.RndMasksAFreeByte := by
  intro x kk s
  have hvalue : ((s.setV x (Config.randomByte s.draws &&& kk)).countDraw).v x = Config.randomByte s.draws &&& kk := by
    rw [State.v_countDraw, State.v_setV, if_pos rfl]
  refine ⟨_, exec_rnd x kk s, hvalue, fun b _ hbit => ?masked, sameRegsExcept_setV s x _, rfl, fun a => rfl⟩
  case masked => rw [hvalue, BitVec.getLsbD_and, hbit, Bool.and_false]

/-! ## The family as a whole (R80) -/

/-- The three shapes of the family: the result alone, the result and then the flag, and Cxkk; results and flags are
functions of the two source bytes. -/
theorem exec_alu_cases {i : Instr} {x y : Reg} {flag : Bool} (h : i.aluForm = some (x, y, flag)) :
    (flag = false ∧ ∃ f : Byte → Byte → Byte, ∀ s, exec i s = .next (s.setV x (f (s.v x) (s.v y)))) ∨
      (flag = true ∧ ∃ f g : Byte → Byte → Byte, ∀ s,
        exec i s = .next (s.setVFlag x (f (s.v x) (s.v y)) (g (s.v x) (s.v y)))) ∨
      (flag = false ∧ ∃ kk, i = .rnd x kk) := by
  cases i with
  | ldImm x kk => cases h; exact .inl ⟨rfl, fun _ _ => kk, fun _ => rfl⟩
  | addImm x kk => cases h; exact .inl ⟨rfl, fun a _ => a + kk, fun _ => rfl⟩
  | ldReg x y => cases h; exact .inl ⟨rfl, fun _ b => b, fun _ => rfl⟩
  | or x y => cases h; exact .inl ⟨rfl, fun a b => a ||| b, fun _ => rfl⟩
  | and x y => cases h; exact .inl ⟨rfl, fun a b => a &&& b, fun _ => rfl⟩
  | xor x y => cases h; exact .inl ⟨rfl, fun a b => a ^^^ b, fun _ => rfl⟩
  | addReg x y => cases h; exact .inr (.inl ⟨rfl, fun a b => a + b, carryFlag, fun _ => rfl⟩)
  | sub x y => cases h; exact .inr (.inl ⟨rfl, fun a b => a - b, notBorrowFlag, fun _ => rfl⟩)
  | shr x y => cases h; exact .inr (.inl ⟨rfl, fun a _ => a >>> 1, fun a _ => shiftedOutRight a, fun _ => rfl⟩)
  | subn x y => cases h; exact .inr (.inl ⟨rfl, fun a b => b - a, fun a b => notBorrowFlag b a, fun _ => rfl⟩)
  | shl x y => cases h; exact .inr (.inl ⟨rfl, fun a _ => a <<< 1, fun a _ => shiftedOutLeft a, fun _ => rfl⟩)
  | rnd x kk => cases h; exact .inr (.inr ⟨rfl, kk, rfl⟩)
  | _ => cases h

/-- Settles O15: each shape writes no field but the registers and the draw counter, and its bytes are functions of what
the two states agree on. -/
theorem aluInstructionsUseOnlyTheirRegisters : Obligations.AluInstructionsUseOnlyTheirRegisters := by
  intro i x y flag hform
  rcases exec_alu_cases hform with ⟨rfl, f, hexec⟩ | ⟨rfl, f, g, hexec⟩ | ⟨rfl, kk, rfl⟩
  · refine ⟨fun s => ⟨_, hexec s, rfl, fun a => rfl, sameRegsExcept_setV s x _⟩, fun s s' t t' hx hy _ ht ht' => ?_⟩
    cases (hexec s).symm.trans ht
    cases (hexec s').symm.trans ht'
    exact ⟨by simp only [State.v_setV, if_true, hx, hy], nofun⟩
  · refine ⟨fun s => ⟨_, hexec s, rfl, fun a => rfl, sameRegsExcept_setVFlag s x _ _⟩, fun s s' t t' hx hy _ ht ht' => ?_⟩
    cases (hexec s).symm.trans ht
    cases (hexec s').symm.trans ht'
    exact ⟨by simp only [State.v_setVFlag, if_true, hx, hy], fun _ => by simp only [State.v_setVFlag, if_true, hx, hy]⟩
  · refine ⟨fun s => ⟨_, exec_rnd x kk s, rfl, fun a => rfl, sameRegsExcept_setV s x _⟩,
      fun s s' t t' _ _ hdraws ht ht' => ?_⟩
    cases (exec_rnd x kk s).symm.trans ht
    cases (exec_rnd x kk s').symm.trans ht'
    exact ⟨by simp only [State.v_countDraw, State.v_setV, if_true, hdraws], nofun⟩

end Sys2Proof.Machine
end

section
/-! PROOFS. The skips that test registers and keys (42_skip.md), Bnnn, and the call stack's instructions (43_flow.md). -/

namespace Sys2Proof.Machine

/-! ## Skips (R102 to R106) -/

theorem exec_sneImm (x : Reg) (kk : Byte) (s : State) : exec (.sneImm x kk) s = .next (s.skipIf (s.v x != kk)) := rfl
theorem exec_seReg (x y : Reg) (s : State) : exec (.seReg x y) s = .next (s.skipIf (s.v x == s.v y)) := rfl
theorem exec_sneReg (x y : Reg) (s : State) : exec (.sneReg x y) s = .next (s.skipIf (s.v x != s.v y)) := rfl
theorem exec_skp (x : Reg) (s : State) : exec (.skp x) s = .next (s.skipIf (keyHeld s (s.v x))) := rfl
theorem exec_sknp (x : Reg) (s : State) : exec (.sknp x) s = .next (s.skipIf (!keyHeld s (s.v x))) := rfl

/-- Settles O26: bytes are equal exactly if their numbers are. -/
theorem registerSkipsFollowTheirPolarity : Obligations.RegisterSkipsFollowTheirPolarity := by
  intro x y kk s
  simp only [ne_eq, BitVec.toNat_inj]
  exact ⟨skipsIf_of_exec (exec_sneImm x kk s) bne_iff_ne, skipsIf_of_exec (exec_seReg x y s) beq_iff_eq,
    skipsIf_of_exec (exec_sneReg x y s) bne_iff_ne⟩

/-- Settles O27: the key that is looked at is the one whose index is the low nibble. -/
theorem keySkipsTestTheLowNibble : Obligations.KeySkipsTestTheLowNibble := by
  intro x k s hk
  obtain rfl : k = lowNibble (s.v x) := Fin.ext (hk.trans (lowNibble_val (s.v x)).symm)
  exact ⟨skipsIf_of_exec (exec_skp x s) Iff.rfl, skipsIf_of_exec (exec_sknp x s) (Iff.of_eq (Bool.not_eq_true' _))⟩

/-! ## Bnnn (R112) -/

/-- Settles O29: the largest sum, 0x10FE, fits in 16 bits. -/
theorem jpV0AddsV0Unreduced : Obligations.JpV0AddsV0Unreduced := fun nnn s =>
  jumpsTo_of_exec rfl (jumpV0Target_toNat nnn (s.v 0))

/-! ## Instructions that raise (R171, R175) -/

theorem raises_of_exec {i : Instr} {s : State} {e : RunError} (hexec : exec i s = .next (s.raiseInstr i e)) :
    raises i s e := ⟨_, hexec, rfl, rfl, fun _ => rfl⟩

/-! ## The call stack (R111, R113) -/

theorem exec_call_of_room (nnn : Addr) {s : State} {j : Fin 16} (h : s.sp.val = j.val) :
    exec (.call nnn) s = .next { s with stack := s.stack.set j s.pc, sp := j.succ, pc := addrWord nnn } := by
  rcases execCall_cases nnn s with ⟨hfull, -⟩ | ⟨j', hj', he⟩
  · omega
  · obtain rfl : j' = j := Fin.ext (hj'.trans h)
    exact he

theorem exec_call_full (nnn : Addr) {s : State} (h : s.sp.val = 16) :
    exec (.call nnn) s = .next (s.raiseInstr (.call nnn) .stackOverflow) := by
  rcases execCall_cases nnn s with ⟨-, he⟩ | ⟨j, hj, -⟩
  · exact he
  · omega

theorem exec_ret_of_entry {s : State} {j : Fin 16} (h : s.sp.val = j.val + 1) :
    exec .ret s = .next { s with sp := j.castSucc, pc := s.stack[j] } := by
  rcases execRet_cases s with ⟨hempty, -⟩ | ⟨j', hj', he⟩
  · omega
  · obtain rfl : j' = j := Fin.ext (by omega)
    exact he

theorem exec_ret_empty {s : State} (h : s.sp.val = 0) : exec .ret s = .next (s.raiseInstr .ret .stackUnderflow) := by
  rcases execRet_cases s with ⟨-, he⟩ | ⟨j, hj, -⟩
  · exact he
  · omega

/-- Settles O30: the push writes the one entry at SP. -/
theorem callPushesReturnAddress : Obligations.CallPushesReturnAddress := by
  intro nnn s h
  refine ⟨_, exec_call_of_room nnn (j := ⟨s.sp.val, h⟩) rfl, addrWord_toNat nnn, rfl, fun k => ?entry, rfl, fun a => rfl⟩
  case entry => simp only [Fin.getElem_fin, Vector.getElem_set, eq_comm]

/-- Settles O31: a full stack has no slot to push into. -/
theorem callOnFullStackRaises : Obligations.CallOnFullStackRaises := fun nnn _ h => raises_of_exec (exec_call_full nnn h)

/-- No bit of a word is lost in decoding, so only one word decodes to RET. -/
theorem decode_eq_ret_iff (op : Word) : decode op = .ret ↔ op = 0x00EE := by
  refine ⟨fun h => ?_, fun h => h ▸ rfl⟩
  rw [← encode_decode op, h, encode]

/-- Settles O32: the word by `encode_decode`, the two cases of the stack by the pop. -/
theorem retPopsOrUnderflows : Obligations.RetPopsOrUnderflows :=
  ⟨decode_eq_ret_iff, fun _ _ h => ⟨_, exec_ret_of_entry h, rfl, rfl, rfl, fun _ => rfl⟩,
    fun _ h => raises_of_exec (exec_ret_empty h)⟩

/-- Settles O33: the return reads the entry that the call wrote, one below the SP that the call left. -/
theorem retReturnsToAfterTheCall : Obligations.RetReturnsToAfterTheCall := by
  intro nnn s t t' hroom hcall hsp hstack
  have hpush := exec_call_of_room nnn (s := s) (j := ⟨s.sp.val, hroom⟩) rfl
  cases hpush.symm.trans hcall
  have hret := exec_ret_of_entry (s := t') (j := ⟨s.sp.val, hroom⟩) (by rw [hsp]; rfl)
  refine ⟨_, hret, ?pc, rfl, rfl, fun a => rfl⟩
  case pc => simp only [hstack, Fin.getElem_fin, Vector.getElem_set_self]

end Sys2Proof.Machine
end

section
/-! PROOFS. Timer and key-wait instructions (45_key_timer.md), the index register and the memory instructions
(46_index_memory.md), and unknown words (47_unknown_sys.md). -/

namespace Sys2Proof.Machine

/-! ## Timers and key wait (R130 to R133) -/

theorem exec_ldVxDt (x : Reg) (s : State) : exec (.ldVxDt x) s = .next (s.setV x s.dt) := rfl
theorem exec_ldDtVx (x : Reg) (s : State) : exec (.ldDtVx x) s = .next (s.setDt (s.v x)) := rfl
theorem exec_ldStVx (x : Reg) (s : State) : exec (.ldStVx x) s = .next (s.setSt (s.v x)) := rfl
theorem exec_ldVxKey (x : Reg) (s : State) : exec (.ldVxKey x) s = .next (s.setCpuState (.waitingForKey x)) := rfl

/-- Settles O38: each of the three is one write. -/
theorem timerInstructionsCopy : Obligations.TimerInstructionsCopy := fun x s =>
  ⟨writesReg_of_exec (exec_ldVxDt x s) rfl, ⟨_, exec_ldDtVx x s, rfl, rfl, fun _ => rfl⟩,
    ⟨_, exec_ldStVx x s, rfl, rfl, fun _ => rfl⟩⟩

/-- Settles O39: the keys are not looked at. -/
theorem ldVxKeyEntersTheWait : Obligations.LdVxKeyEntersTheWait := fun x s =>
  ⟨_, exec_ldVxKey x s, rfl, rfl, fun _ => rfl⟩

/-! ## The index register (R140 to R142) -/

/-- An instruction whose meaning is `setIndex` sets I to the number of its word. -/
theorem setsIndex_of_exec {i : Instr} {s : State} {w : Word} {value : Nat} (hexec : exec i s = .next (s.setIndex w))
    (hw : w.toNat = value) : setsIndex i s value := ⟨_, hexec, hw, rfl, fun _ => rfl⟩

theorem toNat_add_byte (w : Word) (b : Byte) : (w + b.setWidth 16).toNat = (w.toNat + b.toNat) % 65536 := by
  rw [BitVec.toNat_add, BitVec.toNat_setWidth_of_le (by decide)]

/-- Settles O40: Fx1E wraps at 16 bits; the other two values fit. -/
theorem indexInstructionsSetI : Obligations.IndexInstructionsSetI := fun x nnn s =>
  ⟨setsIndex_of_exec rfl (addrWord_toNat nnn), setsIndex_of_exec rfl (toNat_add_byte s.index (s.v x)),
    setsIndex_of_exec rfl (glyphAddr_toNat (s.v x))⟩

/-! ## Stores at I (R143, R144) -/

theorem storeAtI_in_bounds (i : Instr) {bytes : List Byte} {s : State} (h : s.index.toNat + bytes.length ≤ 4096) :
    storeAtI i bytes s = .next (s.setMem (s.mem.setSpan s.index.toNat bytes)) := by
  rcases storeAtI_cases i bytes s with ⟨-, he⟩ | ⟨⟨-, hout⟩, -⟩
  · exact he
  · omega

theorem storeAtI_out_of_bounds (i : Instr) {bytes : List Byte} {s : State} (hb : bytes ≠ [])
    (h : 4096 < s.index.toNat + bytes.length) :
    storeAtI i bytes s = .next (s.raiseInstr i (.addressOutOfBounds (max s.index.toNat 4096))) := by
  rcases storeAtI_cases i bytes s with ⟨hin, -⟩ | ⟨-, he⟩
  · rcases hin with rfl | hin
    · exact absurd rfl hb
    · omega
  · exact he

/-- A store at I leaves every byte outside its span alone. -/
theorem sameBytesOutside_setMem (s : State) (bytes : List Byte) :
    sameBytesOutside s.index.toNat bytes.length s (s.setMem (s.mem.setSpan s.index.toNat bytes)) := fun a ha =>
  Memory.get_setSpan_outside s.mem s.index.toNat a bytes ha

theorem exec_ldBcd (x : Reg) (s : State) : exec (.ldBcd x) s = storeAtI (.ldBcd x) (bcdDigits (s.v x)) s := rfl
theorem exec_stRegs (x : Reg) (s : State) : exec (.stRegs x) s = storeAtI (.stRegs x) (regsUpTo s x) s := rfl

/-- Settles O41: each digit is below 10, so its byte is its number. -/
theorem ldBcdStoresDigits : Obligations.LdBcdStoresDigits := by
  intro x s h
  have hexec := (exec_ldBcd x s).trans (storeAtI_in_bounds (.ldBcd x) (by rw [bcdDigits_length]; omega))
  have hbyte (k : Nat) (hk : k < 3) :
      (s.mem.setSpan s.index.toNat (bcdDigits (s.v x))).get (s.index.toNat + k) = (bcdDigits (s.v x))[k]'hk :=
    Memory.get_setSpan_inside s.mem s.index.toNat k (bcdDigits (s.v x)) hk
  have hdigit (d : Nat) (hd : d < 256) : (BitVec.ofNat 8 d).toNat = d :=
    (BitVec.toNat_ofNat d 8).trans (Nat.mod_eq_of_lt hd)
  refine ⟨_, hexec, ?hundreds, ?tens, ?units, sameBytesOutside_setMem s (bcdDigits (s.v x)), rfl⟩
  case hundreds => exact (congrArg BitVec.toNat (hbyte 0 (by decide))).trans (hdigit _ (by omega))
  case tens => exact (congrArg BitVec.toNat (hbyte 1 (by decide))).trans (hdigit _ (by omega))
  case units => exact (congrArg BitVec.toNat (hbyte 2 (by decide))).trans (hdigit _ (by omega))

/-! ## The bulk store and the bulk load (R144, R145) -/

theorem exec_stRegs_in_bounds {x : Reg} {s : State} (h : s.index.toNat + x.val < 4096) :
    exec (.stRegs x) s = .next (s.setMem (s.mem.setSpan s.index.toNat (regsUpTo s x))) :=
  (exec_stRegs x s).trans (storeAtI_in_bounds (.stRegs x) (by rw [regsUpTo_length]; omega))

/-- After a bulk store I + i reads V[i]. -/
theorem get_setSpan_regsUpTo (s : State) {x i : Reg} (hi : i ≤ x) :
    (s.mem.setSpan s.index.toNat (regsUpTo s x)).get (s.index.toNat + i.val) = s.v i := by
  have hlen : i.val < (regsUpTo s x).length := by rw [regsUpTo_length]; exact Nat.lt_succ_of_le hi
  rw [Memory.get_setSpan_inside s.mem s.index.toNat i.val _ hlen, regsUpTo_getElem s x i hlen]

theorem exec_ldRegs_in_bounds {x : Reg} {s : State} (h : s.index.toNat + x.val < 4096) :
    exec (.ldRegs x) s = .next { s with regs := loadRegs s.regs (s.mem.getSpan s.index.toNat (x.val + 1)) } := by
  rcases execLdRegs_cases x s with ⟨-, he⟩ | ⟨hout, -⟩
  · exact he
  · omega

theorem exec_ldRegs_out_of_bounds {x : Reg} {s : State} (h : 4096 ≤ s.index.toNat + x.val) :
    exec (.ldRegs x) s = .next (s.raiseInstr (.ldRegs x) (.addressOutOfBounds (max s.index.toNat 4096))) := by
  rcases execLdRegs_cases x s with ⟨hin, -⟩ | ⟨-, he⟩
  · omega
  · exact he

/-- Settles O42: the span is as long as V0..Vx, inside it each address reads its register. -/
theorem stRegsStoresV0ToVx : Obligations.StRegsStoresV0ToVx := by
  intro x s h
  have houtside := sameBytesOutside_setMem s (regsUpTo s x)
  rw [regsUpTo_length] at houtside
  exact ⟨_, exec_stRegs_in_bounds h, fun i hi => get_setSpan_regsUpTo s hi, houtside, rfl⟩

/-- Settles O43: `v_loadRegs` says it of every register. -/
theorem ldRegsLoadsV0ToVx : Obligations.LdRegsLoadsV0ToVx := fun x s h =>
  ⟨_, exec_ldRegs_in_bounds h, v_loadRegs s x, rfl, fun _ => rfl⟩

/-- Settles O44: all addresses are checked before the first byte or register is written. -/
theorem memoryInstructionsOutOfBoundsWriteNothing : Obligations.MemoryInstructionsOutOfBoundsWriteNothing := by
  intro x s
  have hregs : regsUpTo s x ≠ [] := List.ne_nil_of_length_pos (by rw [regsUpTo_length]; omega)
  refine ⟨fun h => raises_of_exec ?bcd, fun h => ⟨raises_of_exec ?store, raises_of_exec (exec_ldRegs_out_of_bounds h)⟩⟩
  case bcd =>
    exact (exec_ldBcd x s).trans (storeAtI_out_of_bounds _ (List.cons_ne_nil _ _) (by rw [bcdDigits_length]; omega))
  case store =>
    exact (exec_stRegs x s).trans (storeAtI_out_of_bounds _ hregs (by rw [regsUpTo_length]; omega))

/-- Settles O45: the load reads, at the same I, the bytes that the store wrote. -/
theorem ldRegsUndoesStRegs : Obligations.LdRegsUndoesStRegs := by
  intro x s t t' h hstore hmem hindex
  cases (exec_stRegs_in_bounds h).symm.trans hstore
  rw [State.setMem_mem] at hmem
  refine ⟨_, exec_ldRegs_in_bounds (by rwa [hindex]), fun i => ?_⟩
  rw [v_loadRegs t' x i, hmem, hindex]
  split
  · exact get_setSpan_regsUpTo s ‹i ≤ x›
  · rfl

/-- Settles O46: the store left the machine fetching, with V[i] and V[j] at PC and PC + 1. -/
theorem storedBytesAreFetchedNext : Obligations.StoredBytesAreFetchedNext := by
  intro x i j s hs hin hij hj hpc
  have hlast : j.val ≤ x.val := hj
  have hi : i ≤ x := Fin.le_def.mpr (by omega)
  refine ⟨_, exec_stRegs_in_bounds hin, ?_⟩
  have hstep := step_of_fetching (s := s.setMem (s.mem.setSpan s.index.toNat (regsUpTo s x))) hs
    (by rw [State.setMem_pc]; omega)
  rw [State.setMem_pc, State.setMem_mem, hpc, get_setSpan_regsUpTo s hi, Nat.add_assoc, hij,
    get_setSpan_regsUpTo s hj] at hstep
  exact hstep

/-! ## Unknown words (R150) -/

/-- Settles O47: the policy decides between the two answers. -/
theorem unknownWordFollowsPolicy : Obligations.UnknownWordFollowsPolicy := by
  intro op s
  rcases execUnknown_cases op s with ⟨hpolicy, he⟩ | ⟨hpolicy, he⟩
  · exact ⟨fun _ => raises_of_exec he, fun hnop => absurd (hpolicy.symm.trans hnop) nofun⟩
  · exact ⟨fun hfatal => absurd (hpolicy.symm.trans hfatal) nofun, fun _ => he⟩

end Sys2Proof.Machine
end

section
/-! PROOFS. The sprite (44_draw.md R122 to R124): what a draw of the `n` bytes at I does to each pixel and to VF. -/

namespace Sys2Proof.Machine

/-! ## Dxyn within memory and past its end (R122) -/

/-- The state after the `n` bytes at I are drawn. -/
def State.drawn (s : State) (x y n : Reg) : State := s.blit x y (s.mem.getSpan s.index.toNat n.val)

theorem exec_drw_in_bounds {x y n : Reg} {s : State} (h : n.val = 0 ∨ s.index.toNat + n.val ≤ 4096) :
    exec (.drw x y n) s = .next (s.drawn x y n) := by
  rcases execDrw_cases x y n s with ⟨-, he⟩ | ⟨hout, -⟩
  · exact he
  · omega

theorem exec_drw_out_of_bounds {x y n : Reg} {s : State} (h0 : 0 < n.val) (h : 4096 < s.index.toNat + n.val) :
    exec (.drw x y n) s = .next (s.raiseInstr (.drw x y n) (.addressOutOfBounds (max s.index.toNat 4096))) := by
  rcases execDrw_cases x y n s with ⟨hin, -⟩ | ⟨-, he⟩
  · omega
  · exact he

/-- Settles O36: the bytes are read, all of them checked, before the first pixel changes. -/
theorem drwOutOfBoundsDrawsNothing : Obligations.DrwOutOfBoundsDrawsNothing := fun _ _ _ _ h0 h =>
  raises_of_exec (exec_drw_out_of_bounds h0 h)

/-! ## The pixels (R123) -/

theorem getSpan_getD (m : Memory) (base : Nat) {n k : Nat} (h : k < n) : (m.getSpan base n).getD k 0 = m.get (base + k) := by
  rw [List.getD_eq_getElem _ _ (by rwa [Memory.getSpan_length]), Memory.getSpan_getElem]

/-- The sprite bit that falls on a pixel, and false where none does: row `spriteRow` and column `spriteCol` are the only ones
that fall there (R124). -/
def State.spriteBitAt (s : State) (x y n : Reg) (r : Fin 32) (c : Fin 64) : Bool :=
  decide (spriteRow (s.v y).toNat r < n.val ∧ spriteCol (s.v x).toNat c < 8) &&
    spriteBit (s.mem.get (s.index.toNat + spriteRow (s.v y).toNat r)) (spriteCol (s.v x).toNat c)

theorem sprite_rows_le (s : State) (n : Reg) : (s.mem.getSpan s.index.toNat n.val).length ≤ 32 := by
  rw [Memory.getSpan_length]; omega

/-- Every pixel is composed with its sprite bit by exclusive or. -/
theorem pixel_drawn (s : State) (x y n : Reg) (r : Fin 32) (c : Fin 64) :
    (s.drawn x y n).fb.pixel r c = (s.fb.pixel r c ^^ s.spriteBitAt x y n r c) := by
  obtain ⟨hpixel, -⟩ := drawSprite_cases (s.v x).toNat (s.v y).toNat _ s.fb (sprite_rows_le s n)
  rw [State.drawn, State.blit_fb, hpixel, State.spriteBitAt, Memory.getSpan_length]
  by_cases hr : spriteRow (s.v y).toNat r < n.val
  · rw [getSpan_getD s.mem s.index.toNat hr]
  · simp only [hr, false_and, decide_false, Bool.false_and]

theorem spriteRow_eq {y0 row : Nat} {r : Fin 32} (hrow : row < 32) (hr : r.val = (y0 + row) % 32) : spriteRow y0 r = row :=
  (eq_wrapRow_iff y0 row r hrow).mp (Fin.ext hr)

theorem spriteCol_eq {x0 col : Nat} {c : Fin 64} (hcol : col < 64) (hc : c.val = (x0 + col) % 64) : spriteCol x0 c = col :=
  (eq_wrapCol_iff x0 col c hcol).mp (Fin.ext hc)

/-- Row `row` and column `col` of the sprite fall on the pixel they wrap to. -/
theorem spriteBitAt_inside {s : State} {x y n : Reg} {row col : Nat} {r : Fin 32} {c : Fin 64} (hrow : row < n.val)
    (hcol : col < 8) (hr : r.val = ((s.v y).toNat + row) % 32) (hc : c.val = ((s.v x).toNat + col) % 64) :
    s.spriteBitAt x y n r c = (s.mem.get (s.index.toNat + row)).getLsbD (7 - col) := by
  rw [State.spriteBitAt, spriteRow_eq (by omega) hr, spriteCol_eq (by omega) hc, decide_eq_true ⟨hrow, hcol⟩,
    Bool.true_and, spriteBit]

/-- A 1 bit of the sprite inverts the pixel it falls on. -/
theorem pixel_drawn_of_bit {s : State} {x y n : Reg} {row col : Nat} {r : Fin 32} {c : Fin 64} (hrow : row < n.val)
    (hcol : col < 8) (hr : r.val = ((s.v y).toNat + row) % 32) (hc : c.val = ((s.v x).toNat + col) % 64)
    (hbit : (s.mem.get (s.index.toNat + row)).getLsbD (7 - col) = true) :
    (s.drawn x y n).fb.pixel r c = !s.fb.pixel r c := by
  rw [pixel_drawn, spriteBitAt_inside hrow hcol hr hc, hbit, Bool.xor_true]

/-- No bit falls on a pixel that no row and column wrap to. -/
theorem spriteBitAt_outside {s : State} {x y n : Reg} {r : Fin 32} {c : Fin 64}
    (h : ∀ row col : Nat, row < n.val → col < 8 →
      ¬(r.val = ((s.v y).toNat + row) % 32 ∧ c.val = ((s.v x).toNat + col) % 64)) :
    s.spriteBitAt x y n r c = false := by
  rw [State.spriteBitAt, decide_eq_false, Bool.false_and]
  rintro ⟨hrow, hcol⟩
  refine h _ _ hrow hcol ⟨?_, ?_⟩
  · exact Fin.ext_iff.mp ((eq_wrapRow_iff (s.v y).toNat _ r (by omega)).mpr rfl)
  · exact Fin.ext_iff.mp ((eq_wrapCol_iff (s.v x).toNat _ c (by omega)).mpr rfl)

/-! ## The collision (R122, R123) -/

theorem vF_drawn (s : State) (x y n : Reg) :
    (s.drawn x y n).v vF =
      flagByte (drawSprite (s.v x).toNat (s.v y).toNat (s.mem.getSpan s.index.toNat n.val) s.fb).2 := by
  rw [State.drawn, State.v_blit, if_pos rfl, collisionFlag]

theorem vF_drawn_le (s : State) (x y n : Reg) : ((s.drawn x y n).v vF).toNat ≤ 1 := by
  rw [vF_drawn, flagByte_toNat]
  split <;> decide

theorem flagByte_toNat_eq_one (b : Bool) : (flagByte b).toNat = 1 ↔ b = true := by cases b <;> decide

/-- VF is 1 exactly if some 1 bit of the sprite fell on a pixel that was 1. -/
theorem vF_drawn_eq_one_iff (s : State) (x y n : Reg) :
    ((s.drawn x y n).v vF).toNat = 1 ↔ ∃ row col : Nat, row < n.val ∧ col < 8 ∧
      (s.mem.get (s.index.toNat + row)).getLsbD (7 - col) = true ∧
      ∃ (r : Fin 32) (c : Fin 64), r.val = ((s.v y).toNat + row) % 32 ∧ c.val = ((s.v x).toNat + col) % 64 ∧
        s.fb.pixel r c = true := by
  obtain ⟨-, hcollided⟩ := drawSprite_cases (s.v x).toNat (s.v y).toNat _ s.fb (sprite_rows_le s n)
  rw [vF_drawn, flagByte_toNat_eq_one, hcollided, Memory.getSpan_length]
  constructor
  · rintro ⟨row, hrow, col, hcol, hbit, hpixel⟩
    rw [getSpan_getD s.mem s.index.toNat hrow] at hbit
    exact ⟨row, col, hrow, hcol, hbit, _, _, rfl, rfl, hpixel⟩
  · rintro ⟨row, col, hrow, hcol, hbit, r, c, hr, hc, hpixel⟩
    obtain rfl : r = wrapRow ((s.v y).toNat + row) := Fin.ext hr
    obtain rfl : c = wrapCol ((s.v x).toNat + col) := Fin.ext hc
    exact ⟨row, hrow, col, hcol, by rwa [getSpan_getD s.mem s.index.toNat hrow], hpixel⟩

/-! ## The statements -/

theorem sameRegsExcept_drawn (s : State) (x y n : Reg) : sameRegsExcept [vF] s (s.drawn x y n) := fun r hr => by
  rw [State.drawn, State.v_blit, if_neg fun he => hr (List.mem_singleton.mpr he)]

/-- Settles O35: a pixel has one sprite bit, or none and then it keeps its value; VF is the collision. -/
theorem drwComposesSpriteByXor : Obligations.DrwComposesSpriteByXor := by
  intro x y n s h
  refine ⟨s.drawn x y n, exec_drw_in_bounds h, fun row col hrow hcol r c hr hc => ?inside, fun r c hout => ?outside,
    vF_drawn_le s x y n, vF_drawn_eq_one_iff s x y n, sameRegsExcept_drawn s x y n, rfl, fun a => rfl⟩
  case inside => rw [pixel_drawn, spriteBitAt_inside hrow hcol hr hc]
  case outside => rw [pixel_drawn, spriteBitAt_outside hout, Bool.xor_false]

/-- The second draw reads the coordinates, the bytes and I that the first did, neither coordinate register being VF. -/
theorem spriteBitAt_drawn {s : State} {x y : Reg} (n : Reg) (hx : x ≠ vF) (hy : y ≠ vF) :
    (s.drawn x y n).spriteBitAt x y n = s.spriteBitAt x y n := by
  funext r c
  simp only [State.spriteBitAt, State.drawn, State.v_blit, if_neg hx, if_neg hy, State.blit_mem, State.blit_index]

theorem drawn_drawn_fb {s : State} {x y : Reg} (n : Reg) (hx : x ≠ vF) (hy : y ≠ vF) :
    ((s.drawn x y n).drawn x y n).fb = s.fb :=
  framebuffer_ext fun r c => by
    rw [pixel_drawn, spriteBitAt_drawn n hx hy, pixel_drawn, Bool.xor_assoc, Bool.xor_self, Bool.xor_false]

/-- Settles O37: each pixel takes its sprite bit twice; where the bit is 1 the second draw meets the pixel inverted. -/
theorem drawingTwiceRestoresFramebuffer : Obligations.DrawingTwiceRestoresFramebuffer := by
  intro x y n s t u hx hy h ht hu
  cases (exec_drw_in_bounds h).symm.trans ht
  cases (exec_drw_in_bounds (s := s.drawn x y n) h).symm.trans hu
  have hvx : (s.drawn x y n).v x = s.v x := sameRegsExcept_drawn s x y n x (by rwa [List.mem_singleton])
  have hvy : (s.drawn x y n).v y = s.v y := sameRegsExcept_drawn s x y n y (by rwa [List.mem_singleton])
  have hmem : (s.drawn x y n).mem = s.mem := rfl
  have hindex : (s.drawn x y n).index = s.index := rfl
  refine ⟨drawn_drawn_fb n hx hy, ?collision⟩
  rw [vF_drawn_eq_one_iff, hvx, hvy, hmem, hindex]
  constructor
  · rintro ⟨row, col, hrow, hcol, hbit, r, c, hr, hc, hon⟩
    rw [pixel_drawn_of_bit hrow hcol hr hc hbit, Bool.not_eq_true'] at hon
    exact ⟨row, col, hrow, hcol, hbit, r, c, hr, hc, hon⟩
  · rintro ⟨row, col, hrow, hcol, hbit, r, c, hr, hc, hoff⟩
    refine ⟨row, col, hrow, hcol, hbit, r, c, hr, hc, ?_⟩
    rw [pixel_drawn_of_bit hrow hcol hr hc hbit, hoff, Bool.not_false]

end Sys2Proof.Machine
end
